-- ==== Sys2Proof/Word.lean ====
section
/-! DEFINITION. The two bit patterns of the hardware: a word of memory or register (R21, R26) and a command word (R61). -/

namespace Sys2Proof

/-- A 32-bit pattern: a register, a memory word, the host's data port (R10, R21, R26).
Its signed value `sint` is `BitVec.toInt`, its unsigned value `uint` is `BitVec.toNat`. -/
abbrev Word := BitVec 32

/-- A command word `CMD[71:0]` as the host presents it on the port (R61). -/
abbrev CmdWord := BitVec 72

end Sys2Proof
end

