-- ==== Sys2Proof/Config.lean ====
section
/-! DEFINITION. The constants of R7 and R8, and the values the spec leaves unspecified after a fault (U1), as opaque constants. -/

namespace Sys2Proof

/-- `WORD_BYTES`, the divisor of the translator: the constant 4, not derived from anything (R7, R8, D23). -/
@[simp] def Config.wordBytes : Nat := 4

/-- `MEM_BYTES` (R7). -/
@[simp] def Config.memBytes : Nat := 2048

/-- `MEMORY_SIZE = MEM_BYTES / WORD_BYTES`, 512 words (R7, R26). -/
@[simp] def Config.memWords : Nat := Config.memBytes / Config.wordBytes

/-- `AW`, the width of an address field in bits (R7, R41). -/
@[simp] def Config.addrBits : Nat := 32

/-- `REG_RESET`: −1, the pattern 0xFFFFFFFF (R7, R31). -/
def Config.regReset : Word := 0xFFFFFFFF#32

/-- `MEM_RESET`: 0 (R7, R31). It is also what an unlisted word of memory reads as. -/
@[simp] def Config.memReset : Word := 0#32

/-- `TEMP_ADDR`, the scratch address of `swap`: 0 in this hardware (R7). It is a parameter of the configuration, fixed for
a run (D12, U13); `swapRoutine` and `execSwapWith` take it as an argument, so that statements can be made for every value
of it (log entry 5). -/
def Config.tempAddr : Nat := 0

/-- `MEM1_ADDR`, the default first operand of `swap` (R7, R45): a name for the host, no rule reads it. -/
def Config.mem1Addr : Nat := 4

/-- `MEM2_ADDR`, the default second operand of `swap` (R7, R45): a name for the host, no rule reads it. -/
def Config.mem2Addr : Nat := 8

/-- FREE VALUE. What register number `i` holds after the `n`-th fault: unspecified (R133, U1). Log entry 8. -/
opaque Config.lostReg : Nat → Nat → Word

/-- FREE VALUE. What memory word `k` holds after the `n`-th fault: unspecified (R133, U1). Log entry 8. -/
opaque Config.lostWord : Nat → Nat → Word

end Sys2Proof
end

