-- ==== Sys2Proof/Syntax.lean ====
section
/-! DEFINITION. The abstract commands of R72, the two primitives of R82, why a command word is illegal (R67), and the
host's transactions (R110 to R115). -/

namespace Sys2Proof

/-- A register selector: exactly two members, a selector and not a value (R20). -/
inductive Reg where
  | reg1
  | reg2
  deriving DecidableEq, Repr

/-- A command: one row of `spec/opcode_table.json` per constructor, operands in the source's order (R70, R72). A byte address
is a plain number, an operand and never state; addresses are unsigned, and the spec lets a model take them as natural
numbers (R41, D2): `WellFormed` says which of them the 32-bit field of a command can hold (log entry 4). -/
inductive Instr where
  /-- `mov dest, src`: store a register to memory (R80). -/
  | mov (dest : Nat) (src : Reg)
  /-- `sub dest, src`: subtract a memory word from a register (R81). -/
  | sub (dest : Reg) (src : Nat)
  /-- `stc addr, reg`: store a register and clear it (R91). -/
  | stc (addr : Nat) (reg : Reg)
  /-- `load reg, addr`: read a word into a register that holds 0 (R92). -/
  | load (reg : Reg) (addr : Nat)
  /-- `swap a, b`: exchange two words (R94). -/
  | swap (a b : Nat)
  deriving DecidableEq, Repr

/-- A primitive instruction: exactly two constructors, and no third may be added (R82). -/
inductive Prim where
  | mov (dest : Nat) (src : Reg)
  | sub (dest : Reg) (src : Nat)
  deriving DecidableEq, Repr

/-- Why `Decode` answers `Illegal` (R67); every word that spells no command has one of these (R68). -/
inductive IllegalReason where
  /-- the reserved field `CMD[67:65]` is not 000 -/
  | reservedField
  /-- the operation code is 0x0 or one of 0x6 to 0xF -/
  | unassignedOp (op : Nat)
  /-- `addr_b` is not 0 in a command of one address (op 0x1 to 0x4) -/
  | secondAddress
  /-- `reg` is not 0 in a `swap` (op 0x5) -/
  | registerInSwap
  deriving DecidableEq, Repr

/-- A transaction of the host that changes or asks for something (R110, R112, R113, R115). Register observation is no
transaction with an effect (R117): it is `State.reg1Q` and `State.reg2Q` of Machine/Flags.lean. -/
inductive Request where
  /-- the reset transaction (R112) -/
  | reset
  /-- the command transaction, run to completion in one step of the model (R113, R99) -/
  | command (w : CmdWord)
  /-- the same command transaction seen micro-step by micro-step (R25, R90): accepted and latched in one step of the model,
  then one micro-step a step, so that a reset can arrive while it runs (R151). Log entry 6 -/
  | stepped (w : CmdWord)
  /-- a host memory access with `acc_we = 0` (R115) -/
  | read (addr : Nat)
  /-- a host memory access with `acc_we = 1` (R115) -/
  | write (addr : Nat) (v : Word)
  deriving DecidableEq, Repr

end Sys2Proof
end

