-- ==== Sys2Proof/WellFormed.lean ====
section
/-! DEFINITION. Which commands and transactions the fields of the port can carry: every address is an unsigned integer below 2^32 (R41, R64, R72). -/

namespace Sys2Proof

/-- An address the 32-bit field can hold (R41, R64). -/
def addrFits (a : Nat) : Bool := a < 2 ^ Config.addrBits

/-- The address operands of R72, unsigned integers below 2^32, every one of a command. -/
def Instr.wf : Instr → Bool
  | .mov dest _ => addrFits dest
  | .sub _ src => addrFits src
  | .stc addr _ => addrFits addr
  | .load _ addr => addrFits addr
  | .swap a b => addrFits a && addrFits b

/-- The address of a host access fits `acc_addr`, 32 bits (R111). -/
def Request.wf : Request → Bool
  | .read addr => addrFits addr
  | .write addr _ => addrFits addr
  | .reset => true
  | .command _ => true
  | .stepped _ => true

end Sys2Proof
end

