-- ==== Sys2Proof/Decode.lean ====
section
/-! DEFINITION. The command encoding: the decoder of R66, total on 72-bit words, the encoder of R72, and the opcode table's
view of the decoder. -/

namespace Sys2Proof

/-- `v[hi:lo]`: the inclusive slice, as an unsigned integer (R10). -/
def bits (w : CmdWord) (hi lo : Nat) : Nat := w.toNat / 2 ^ lo % 2 ^ (hi - lo + 1)

/-- Field `op`, `CMD[71:68]` (R61). -/
def opField (w : CmdWord) : Nat := bits w 71 68

/-- Field `rsv`, `CMD[67:65]` (R61). -/
def rsvField (w : CmdWord) : Nat := bits w 67 65

/-- Field `reg`, `CMD[64]` (R61). -/
def regField (w : CmdWord) : Nat := bits w 64 64

/-- Field `addr_b`, `CMD[63:32]` (R61). -/
def addrBField (w : CmdWord) : Nat := bits w 63 32

/-- Field `addr_a`, `CMD[31:0]` (R61). -/
def addrAField (w : CmdWord) : Nat := bits w 31 0

/-- The register a selector bit names: 0 is `Reg1`, 1 is `Reg2` (R63). -/
def regOfBit (b : Nat) : Reg := if b = 0 then .reg1 else .reg2

/-- The selector bit of a register (R63). -/
def bitOfReg : Reg → Nat
  | .reg1 => 0
  | .reg2 => 1

/-- `Decode` of R66, clause by clause; where the spec answers `Illegal` the reason of R67 is named. It reads no state and
raises no fault: an address of 2048 or more decodes. -/
def decode (w : CmdWord) : Except IllegalReason Instr :=
  if rsvField w ≠ 0 then .error .reservedField
  else if opField w = 1 then
    if addrBField w = 0 then .ok (.mov (addrAField w) (regOfBit (regField w))) else .error .secondAddress
  else if opField w = 2 then
    if addrBField w = 0 then .ok (.sub (regOfBit (regField w)) (addrAField w)) else .error .secondAddress
  else if opField w = 3 then
    if addrBField w = 0 then .ok (.stc (addrAField w) (regOfBit (regField w))) else .error .secondAddress
  else if opField w = 4 then
    if addrBField w = 0 then .ok (.load (regOfBit (regField w)) (addrAField w)) else .error .secondAddress
  else if opField w = 5 then
    if regField w = 0 then .ok (.swap (addrAField w) (addrBField w)) else .error .registerInSwap
  else .error (.unassignedOp (opField w))

/-- The fields put in their places, `rsv` 0 (R61); an address outside the field is cut to its 32 bits, which no well-formed
command has. -/
def packWord (op reg addrB addrA : Nat) : CmdWord :=
  BitVec.ofNat 72 (op * 2 ^ 68 + reg * 2 ^ 64 + addrB % 2 ^ 32 * 2 ^ 32 + addrA % 2 ^ 32)

/-- `Encode : Cmd -> 72 bits`: the fields of R65, every unused field 0 (R72). -/
def encode : Instr → CmdWord
  | .mov dest src => packWord 1 (bitOfReg src) 0 dest
  | .sub dest src => packWord 2 (bitOfReg dest) 0 src
  | .stc addr reg => packWord 3 (bitOfReg reg) 0 addr
  | .load reg addr => packWord 4 (bitOfReg reg) 0 addr
  | .swap a b => packWord 5 0 b a

/-- The command word of a table row: bits `nbits - 1` to 0 as given, the bits above them 0. A command is one word on a
port and is stored nowhere (R60), so it has no byte order to lay out. -/
def tableWord (nbits w : Nat) : CmdWord := BitVec.ofNat 72 (w % 2 ^ nbits)

/-- What the decoder reads from the word of a table row. -/
def decodeTableWord (nbits w : Nat) : Option Instr := (decode (tableWord nbits w)).toOption

end Sys2Proof
end

