-- ==== Sys2Proof/Machine/State.lean ====
section
/-! DEFINITION. The state of the block (R30), the host's side of the interface that the step reads and writes, the reasons a
step stops, and the state after reset (R31, R150). -/

namespace Sys2Proof.Machine

/-- The memory array of R26 as the words that differ from their reset value: pairs of a word index and a word, indices
strictly rising, no word 0. It is an array of words and has no byte order (R49); log entry 3. -/
abbrev Memory := List (Nat × Word)

/-- The sequencer state `seq` (R25). -/
inductive Seq where
  /-- no command is running; a command or a host access is accepted -/
  | idle
  /-- command `c` is running and `upc` is the index of its next micro-step -/
  | run (c : Instr) (upc : Nat)
  /-- an `OutOfBounds` fault has occurred; nothing is accepted until reset -/
  | halted
  deriving DecidableEq, Repr

/-- Response status (R114); code 3 is never produced. -/
inductive Status where
  /-- code 0: the operation completed -/
  | ok
  /-- code 1: the operation raised `OutOfBounds` -/
  | fault
  /-- code 2: the command word spelt no command. No step answers a state that holds it: such a run is refused (R121);
  `blockAfter` of Safety.lean says what the block itself is then -/
  | illegal
  deriving DecidableEq, Repr

/-- One response: `rsp_status`, and `acc_rdata` where it is meaningful, after a host read answered OK (R111, R114). -/
structure Response where
  status : Status
  rdata : Option Word
  deriving DecidableEq, Repr

/-- The operation a fault names (R133). -/
inductive Operation where
  | command (c : Instr)
  | hostRead
  | hostWrite
  deriving DecidableEq, Repr

/-- Why the machine stops with a fault. -/
inductive Fault where
  /-- `OutOfBounds` (R130): raised by every memory access of a command or of the host whose word index is 512 or more. It
  names the operation and the address and is distinct from every state (R133). It is the spec's own outcome: safe. -/
  | outOfBounds (op : Operation) (addr : Nat)
  /-- Raised by a step of a block that is already HALTED when the host does not reset it: the block takes no step (R120),
  and the spec classes that as fault, never as an end state (U2). Safe. -/
  | blockHalted
  deriving DecidableEq, Repr

/-- Why a step has no meaning. -/
inductive Refusal where
  /-- Raised by a rejected arm of `exec` only: an instruction without a meaning yet. Safe. No arm uses it. -/
  | notModelled (mnemonic : String)
  /-- Raised when the host presents a word that spells no command: a model refuses such a run (R67, R121, U7). Safe. -/
  | illegalCommand (w : CmdWord) (why : IllegalReason)
  /-- Raised when a command or a host access is given to a block whose `seq` is not IDLE: it is not accepted (R119, R120,
  U9). Safe. -/
  | notAccepted
  /-- Raised by a step of a state whose `seq` is RUN(c, upc) with `upc` outside `0 <= upc < len(c)`, which R25 rules out and
  no step from a state inside the range produces. Safe. -/
  | noMicroStep
  deriving DecidableEq, Repr

/-- The complete state of the block, `(x[1], x[2], M[0..511], seq)` (R30), and three fields of the model's own that stand
for the host's side and for the free values: `requests`, `rsp`, `freeCounter` (log entries 1, 2 and 8). -/
structure State where
  /-- `x[1]`, the register `Reg1` (R20) -/
  x1 : Word
  /-- `x[2]`, the register `Reg2` (R20) -/
  x2 : Word
  /-- `M[0..511]` (R26) -/
  mem : Memory
  /-- the sequencer (R25) -/
  seq : Seq
  /-- the rest of the host's list of transactions, the next one first (R121) -/
  requests : List Request
  /-- the last response; none before the first, after reset and while a command runs (R111) -/
  rsp : Option Response
  /-- how many faults have taken free values (U1) -/
  freeCounter : Nat
  deriving DecidableEq, Repr

/-- The machine right after reset: both registers −1, every word 0, `seq` IDLE (R31, R150); the host has presented
nothing. -/
def State.reset : State where
  x1 := Config.regReset
  x2 := Config.regReset
  mem := []
  seq := .idle
  requests := []
  rsp := none
  freeCounter := 0

end Sys2Proof.Machine
end

