-- ==== Sys2Proof/Machine/Operands.lean ====
section
/-! DEFINITION. The two operand forms: an absolute byte address through the translator (R42 to R46, R64), and a register
selector (R20, R63). -/

namespace Sys2Proof.Machine

/-- The address translator (R44): the word index `addr div 4`, or `raise OutOfBounds(addr)` when that index is 512 or more.
The two low bits of a misaligned address are dropped (R46). It reads no state. -/
def xlate (addr : Nat) : Except Nat Nat :=
  if addr / Config.wordBytes ≥ Config.memWords then .error addr else .ok (addr / Config.wordBytes)

/-- `x[i]` (R10, R20). -/
def State.reg (s : State) : Reg → Word
  | .reg1 => s.x1
  | .reg2 => s.x2

/-- `x[i] <- v`: all 32 bits, the other register unchanged (R10, R81). -/
def State.setReg (s : State) (r : Reg) (v : Word) : State :=
  match r with
  | .reg1 => { s with x1 := v }
  | .reg2 => { s with x2 := v }

end Sys2Proof.Machine
end

