-- ==== Sys2Proof/Machine/Ops.lean ====
section
/-! DEFINITION. The named operations over memory, registers and the sequencer: wrapping subtraction (R83), word access
(R48), the response (R113), the fault (R130 to R133), reset (R150). -/

namespace Sys2Proof.Machine

/-- `wrap32(z)`: the word whose bits spell `z mod 2^32` (R10). -/
def wrap32 (z : Int) : Word := BitVec.ofInt 32 z

/-- `a -% b = wrap32(uint(a) - uint(b))` (R10, R83). -/
def wrapSub (a b : Word) : Word := wrap32 ((a.toNat : Int) - (b.toNat : Int))

/-- The word with index `k`; an unlisted word reads as its reset value 0 (R31, R50). -/
def Memory.word : Memory → Nat → Word
  | [], _ => Config.memReset
  | (j, v) :: m, k => if j = k then v else Memory.word m k

/-- A pair put before the first pair of a greater index. -/
def Memory.insert : Memory → Nat × Word → Memory
  | [], c => [c]
  | d :: m, c => if c.1 < d.1 then c :: d :: m else d :: Memory.insert m c

/-- `M[k] <- v`: the old entry leaves the list, the new one enters unless it is what an unlisted word reads as (R50). -/
def Memory.put (m : Memory) (k : Nat) (v : Word) : Memory :=
  if v = Config.memReset then m.filter (fun c => c.1 ≠ k) else Memory.insert (m.filter (fun c => c.1 ≠ k)) (k, v)

/-- The canonical form: indices strictly rising, inside the array of 512 words (R26), no entry at its reset value. -/
abbrev Memory.wf (m : Memory) : Prop :=
  m.Pairwise (fun c d => c.1 < d.1) ∧ ∀ c ∈ m, c.1 < Config.memWords ∧ c.2 ≠ Config.memReset

/-- `M[k]` (R10). -/
def State.word (s : State) (k : Nat) : Word := Memory.word s.mem k

/-- `M[k] <- v` (R10). -/
def State.setWord (s : State) (k : Nat) (v : Word) : State := { s with mem := Memory.put s.mem k v }

/-- `MemRead(addr, 4)`: `M[Xlate(addr)]`, or `raise OutOfBounds(addr)`; nothing is read then (R44, R48). -/
def memRead (addr : Nat) (s : State) : Except Nat Word :=
  match xlate addr with
  | .error a => .error a
  | .ok k => .ok (s.word k)

/-- `MemWrite(addr, 4, v)`: `M[Xlate(addr)] <- v`, or `raise OutOfBounds(addr)`; nothing is written then (R44, R48). -/
def memWrite (addr : Nat) (v : Word) (s : State) : Except Nat State :=
  match xlate addr with
  | .error a => .error a
  | .ok k => .ok (s.setWord k v)

/-- An operation is done: `seq` is IDLE and the response is OK, with the word read where it was a host read (R85, R113,
R115). -/
def State.complete (s : State) (rdata : Option Word) : State :=
  { s with seq := .idle, rsp := some { status := .ok, rdata := rdata } }

/-- A command is latched, or goes on to the micro-step `upc`: `seq <- RUN(c, upc)`, no response yet (R25, R90). -/
def State.running (s : State) (c : Instr) (upc : Nat) : State :=
  { s with seq := .run c upc, rsp := none }

/-- What the host has still to present becomes `l`; the block itself is as it was (R121). -/
def State.setRequests (s : State) (l : List Request) : State := { s with requests := l }

/-- THE ONE FAULT, taken here for every operation (R130, R132): the outcome names the operation and the address and is
distinct from any state (R133). There is no handler, no saved register and no return (R138, R139). What the block itself is
after it is `haltBlock`. -/
def raiseOutOfBounds (op : Operation) (addr : Nat) : Host.Outcome State Fault Refusal :=
  .fault (.outOfBounds op addr)

/-- The first `k` words of memory after the `n`-th fault: free values (R133, U1). -/
def lostMemory (n : Nat) : Nat → Memory
  | 0 => []
  | k + 1 => Memory.put (lostMemory n k) k (Config.lostWord n k)

/-- The block after an `OutOfBounds` fault: `seq` HALTED, the response FAULT, both registers and every word of memory free
values (R132, R133, U1); the later transactions of the run's list do not happen (R121). -/
def haltBlock (s : State) : State where
  x1 := Config.lostReg s.freeCounter 1
  x2 := Config.lostReg s.freeCounter 2
  mem := lostMemory s.freeCounter Config.memWords
  seq := .halted
  requests := []
  rsp := some { status := .fault, rdata := none }
  freeCounter := s.freeCounter + 1

/-- The block after an illegal command word: nothing of it changes, the response is ILLEGAL and it is not halted (R67,
R113). -/
def rejectIllegal (s : State) : State :=
  { s with rsp := some { status := .illegal, rdata := none } }

/-- The reset transaction (R112, R150, R151): every piece of the block's state at its reset value, whatever it was; no
response. What the host has still to present and the counter of free values are no state of the block and stay. -/
def resetBlock (s : State) : State :=
  { State.reset with requests := s.requests, freeCounter := s.freeCounter }

end Sys2Proof.Machine
end

