-- ==== Sys2Proof/Machine/Rom.lean ====
section
/-! DEFINITION. The micro-ROM of R97: for every command the fixed list of its primitives. -/

namespace Sys2Proof.Machine

/-- A primitive command is a microroutine of length 1 (R85, R97). -/
def movRoutine (dest : Nat) (src : Reg) : List Prim := [.mov dest src]

/-- A primitive command is a microroutine of length 1 (R85, R97). -/
def subRoutine (dest : Reg) (src : Nat) : List Prim := [.sub dest src]

/-- `stc`: store, then clear (R91). -/
def stcRoutine (addr : Nat) (reg : Reg) : List Prim := [.mov addr reg, .sub reg addr]

/-- `load`: negate into the register, store the negation, subtract twice more, restore the word (R92). -/
def loadRoutine (reg : Reg) (addr : Nat) : List Prim :=
  [.sub reg addr, .mov addr reg, .sub reg addr, .sub reg addr, .mov addr reg]

/-- `swap` with the scratch address `t`, in the source's three steps (R94, R97). -/
def swapRoutine (t a b : Nat) : List Prim :=
  stcRoutine t .reg1 ++ stcRoutine t .reg2
    ++ loadRoutine .reg1 a ++ loadRoutine .reg2 b
    ++ stcRoutine a .reg2 ++ stcRoutine b .reg1

/-- `ROM(c, ·)` (R97), with `TEMP_ADDR` of the configuration. -/
def rom : Instr → List Prim
  | .mov dest src => movRoutine dest src
  | .sub dest src => subRoutine dest src
  | .stc addr reg => stcRoutine addr reg
  | .load reg addr => loadRoutine reg addr
  | .swap a b => swapRoutine Config.tempAddr a b

/-- The same primitive issued by the host as a command (R85, R99). -/
def primCommand : Prim → Instr
  | .mov dest src => .mov dest src
  | .sub dest src => .sub dest src

end Sys2Proof.Machine
end

