-- ==== Sys2Proof/Machine/Sequencer.lean ====
section
/-! DEFINITION. The primitive execution unit (R80, R81) and the sequencer, whole command at once (R99) and one micro-step at
a time (R90). -/

namespace Sys2Proof.Machine

/-- One primitive (R80, R81): `mov` makes one write, `sub` one read and a wrapping subtraction; an access out of bounds
raises before anything is written (R44). -/
def execPrim : Prim → State → Except Nat State
  | .mov dest src, s => memWrite dest (s.reg src) s
  | .sub dest src, s =>
    match memRead src s with
    | .error a => .error a
    | .ok m => .ok (s.setReg dest (wrapSub (s.reg dest) m))

/-- The primitives of a list in order, stopping at the first that raises (R99). -/
def runPrims : List Prim → State → Except Nat State
  | [], s => .ok s
  | p :: ps, s =>
    match execPrim p s with
    | .error a => .error a
    | .ok t => runPrims ps t

/-- Command `c` with its microroutine, in a block that is IDLE: the whole of it as one transition (R85, R99, R113). A block
that is not IDLE accepts no command (R119, R120). -/
def runCommand (c : Instr) (routine : List Prim) (s : State) : Host.Outcome State Fault Refusal :=
  match s.seq with
  | .idle =>
    match runPrims routine s with
    | .error a => raiseOutOfBounds (.command c) a
    | .ok t => .next (t.complete none)
  | .run _ _ => .refused .notAccepted
  | .halted => .refused .notAccepted

/-- The sequencer's step with `seq = RUN(c, upc)` (R90). -/
def microStep (c : Instr) (upc : Nat) (s : State) : Host.Outcome State Fault Refusal :=
  match (rom c)[upc]? with
  | none => .refused .noMicroStep
  | some p =>
    match execPrim p s with
    | .error a => raiseOutOfBounds (.command c) a
    | .ok t => if upc + 1 = (rom c).length then .next (t.complete none) else .next (t.running c (upc + 1))

end Sys2Proof.Machine
end

