-- ==== Sys2Proof/Machine/Composites.lean ====
section
/-! DEFINITION. The meanings of the three composite commands. -/

namespace Sys2Proof.Machine

/-- `stc addr, reg` (R91). -/
def execStc (addr : Nat) (reg : Reg) (s : State) : Host.Outcome State Fault Refusal :=
  runCommand (.stc addr reg) (stcRoutine addr reg) s

/-- `load reg, addr` (R92, R93); the precondition is not checked. -/
def execLoad (reg : Reg) (addr : Nat) (s : State) : Host.Outcome State Fault Refusal :=
  runCommand (.load reg addr) (loadRoutine reg addr) s

/-- `swap a, b` in a block configured with the scratch address `t` (R94, R95, D12). -/
def execSwapWith (t a b : Nat) (s : State) : Host.Outcome State Fault Refusal :=
  runCommand (.swap a b) (swapRoutine t a b) s

/-- `swap a, b` with the hardware's `TEMP_ADDR` (R7, R94). -/
def execSwap (a b : Nat) (s : State) : Host.Outcome State Fault Refusal :=
  execSwapWith Config.tempAddr a b s

end Sys2Proof.Machine
end

