-- ==== Sys2Proof/Machine/Primitives.lean ====
section
/-! DEFINITION. The meanings of the two primitive commands. -/

namespace Sys2Proof.Machine

/-- `mov dest, src` (R80, R85). -/
def execMov (dest : Nat) (src : Reg) (s : State) : Host.Outcome State Fault Refusal :=
  runCommand (.mov dest src) (movRoutine dest src) s

/-- `sub dest, src` (R81, R85). -/
def execSub (dest : Reg) (src : Nat) (s : State) : Host.Outcome State Fault Refusal :=
  runCommand (.sub dest src) (subRoutine dest src) s

end Sys2Proof.Machine
end

