-- ==== Sys2Proof/Machine/Dispatch.lean ====
section
/-! DEFINITION. One arm per command, each a call of its own meaning. -/

namespace Sys2Proof.Machine

def exec (i : Instr) (s : State) : Host.Outcome State Fault Refusal :=
  match i with
  | .mov dest src => Sys2Proof.Machine.execMov dest src s
  | .sub dest src => Sys2Proof.Machine.execSub dest src s
  | .stc addr reg => Sys2Proof.Machine.execStc addr reg s
  | .load reg addr => Sys2Proof.Machine.execLoad reg addr s
  | .swap a b => Sys2Proof.Machine.execSwap a b s

end Sys2Proof.Machine
end

