-- ==== Sys2Proof/Machine/HostAccess.lean ====
section
/-! DEFINITION. The host's memory accessor (R115, R116), accepted only when `seq` is IDLE. -/

namespace Sys2Proof.Machine

/-- A read: `acc_rdata = M[Xlate(acc_addr)]`, no side effect, status OK; or the fault (R115). -/
def hostRead (addr : Nat) (s : State) : Host.Outcome State Fault Refusal :=
  match s.seq with
  | .idle =>
    match memRead addr s with
    | .error a => raiseOutOfBounds .hostRead a
    | .ok v => .next (s.complete (some v))
  | .run _ _ => .refused .notAccepted
  | .halted => .refused .notAccepted

/-- A write: `M[Xlate(acc_addr)] <- acc_wdata`, the registers untouched, status OK; or the fault (R115). -/
def hostWrite (addr : Nat) (v : Word) (s : State) : Host.Outcome State Fault Refusal :=
  match s.seq with
  | .idle =>
    match memWrite addr v s with
    | .error a => raiseOutOfBounds .hostWrite a
    | .ok t => .next (t.complete none)
  | .run _ _ => .refused .notAccepted
  | .halted => .refused .notAccepted

end Sys2Proof.Machine
end

