-- ==== Sys2Proof/Machine/Transactions.lean ====
section
/-! DEFINITION. What the block does with the host's transactions in each shape of `seq` (R112, R113, R115, R119, R120). -/

namespace Sys2Proof.Machine

/-- A command transaction to a block that is IDLE: decoded, then run to completion; an illegal word is refused (R67, R113,
R121). -/
def acceptCommand (w : CmdWord) (s : State) : Host.Outcome State Fault Refusal :=
  match decode w with
  | .error why => .refused (.illegalCommand w why)
  | .ok i => exec i s

/-- The same transaction at the grain of micro-steps: the command is latched as RUN(c, 0) (R25, R90). -/
def acceptStepped (w : CmdWord) (s : State) : Host.Outcome State Fault Refusal :=
  match decode w with
  | .error why => .refused (.illegalCommand w why)
  | .ok i => .next (s.running i 0)

/-- One transaction of the host that is no reset, to a block that is IDLE (R113, R115). -/
def accept (r : Request) (s : State) : Host.Outcome State Fault Refusal :=
  match r with
  | .reset => .next (resetBlock s)
  | .command w => acceptCommand w s
  | .stepped w => acceptStepped w s
  | .read addr => hostRead addr s
  | .write addr v => hostWrite addr v s

/-- A block that is IDLE takes the next transaction; with none presented nothing happens (R3). -/
def stepIdle (s : State) : Host.Outcome State Fault Refusal :=
  match s.requests with
  | [] => .next s
  | r :: rest => accept r (s.setRequests rest)

/-- A block that is RUN takes a reset at any time (R112, R151) and otherwise its next micro-step; every other transaction
waits (R113, R119). -/
def stepRun (c : Instr) (upc : Nat) (s : State) : Host.Outcome State Fault Refusal :=
  match s.requests with
  | .reset :: rest => .next (resetBlock (s.setRequests rest))
  | _ => microStep c upc s

/-- A block that is HALTED has no step but reset (R120, R139): a transaction presented is not accepted (U9), and with none
presented it stays a fault (U2). -/
def stepHalted (s : State) : Host.Outcome State Fault Refusal :=
  match s.requests with
  | [] => .fault .blockHalted
  | .reset :: rest => .next (resetBlock (s.setRequests rest))
  | _ :: _ => .refused .notAccepted

end Sys2Proof.Machine
end

