-- ==== Sys2Proof/Machine/Step.lean ====
section
/-! DEFINITION. One step of the machine: the next transaction of the host, or the next micro-step of a running command. -/

namespace Sys2Proof.Machine

/-- One step, by the shape of `seq` (R25). -/
def step (s : State) : Host.Outcome State Fault Refusal :=
  match s.seq with
  | .idle => stepIdle s
  | .run c upc => stepRun c upc s
  | .halted => stepHalted s

/-- The host presents the word of a table row to the block, which is IDLE for it, before anything else it may have to
present: the next step runs that command (log entry 7). -/
def State.withFetchWord (s : State) (nbits w : Nat) : State :=
  { s with seq := .idle, requests := .command (tableWord nbits w) :: s.requests }

end Sys2Proof.Machine
end

