-- ==== Sys2Proof/Machine/Flags.lean ====
section
/-! DEFINITION. There are no condition codes (R27). The only status the block shows is computed here from `seq`: the output
ports of R111 and the register observation of R117, and the response codes of R114. -/

namespace Sys2Proof.Machine

/-- Output `busy`: 1 iff `seq` is RUN (R111, C9). -/
def State.busy (s : State) : Bool :=
  match s.seq with
  | .run _ _ => true
  | .idle => false
  | .halted => false

/-- Output `halted`: 1 iff `seq` is HALTED (R27, R111). -/
def State.isHalted (s : State) : Bool := s.seq = .halted

/-- Output `cmd_ready`: 1 iff `seq` is IDLE (R111). -/
def State.cmdReady (s : State) : Bool := s.seq = .idle

/-- Output `acc_ready`: 1 iff `seq` is IDLE (R111). -/
def State.accReady (s : State) : Bool := s.seq = .idle

/-- Observation of `Reg1` on `reg1_q`: its value when `seq` is IDLE, no observation otherwise (R117, U8). -/
def State.reg1Q (s : State) : Option Word := if s.seq = .idle then some s.x1 else none

/-- Observation of `Reg2` on `reg2_q`: its value when `seq` is IDLE, no observation otherwise (R117, U8). -/
def State.reg2Q (s : State) : Option Word := if s.seq = .idle then some s.x2 else none

/-- `rsp_status` (R114). -/
def statusCode : Status → Nat
  | .ok => 0
  | .fault => 1
  | .illegal => 2

end Sys2Proof.Machine
end

