-- ==== Sys2Proof/Safety.lean ====
section
/-! DEFINITION. The notions the statements use: the invariant of the state, a run of the host's transactions and how it
ends (R121), commands issued one after the other (R99), the block after a fault (R132, R133), the renaming of the
registers (R23), the states in which nothing has written a register since reset (R32). -/

namespace Sys2Proof.Machine

/-- The range of `seq` (R25): a running command is one the port can carry, and `0 <= upc < len(c)`. -/
abbrev Seq.inRange : Seq → Prop
  | .idle => True
  | .run c upc => c.wf = true ∧ upc < (rom c).length
  | .halted => True

/-- What holds in every state a step can reach: memory in its canonical form, inside the 512 words (R26), and `seq` in its
range (R25). -/
abbrev State.Inv (s : State) : Prop := Memory.wf s.mem ∧ s.seq.inRange

/-- The host presents a list of transactions, after those it has already presented (R121). -/
def State.present (s : State) (l : List Request) : State := s.setRequests (s.requests ++ l)

/-- The state a run of the host's transactions starts from: one reset, then the list (R121). -/
def State.runStart (l : List Request) : State := State.reset.present l

/-- A run ends well in `t`: every transaction has been applied, the last one answered OK and `seq` is IDLE (R121). -/
def EndsWell (l : List Request) (t : State) : Prop :=
  (∃ n, Host.Core.run Sys2Proof.core n (State.runStart l) = .next t) ∧
    t.requests = [] ∧ t.seq = .idle ∧ ∃ d, t.rsp = some { status := .ok, rdata := d }

/-- Commands issued one after the other, stopping at the first that does not complete (R99). -/
def execAll : List Instr → State → Host.Outcome State Fault Refusal
  | [], s => .next s
  | i :: is, s =>
    match exec i s with
    | .next t => execAll is t
    | .fault f => .fault f
    | .refused r => .refused r

/-- Two outcomes that differ at most in the operation a fault names: the same next state, `OutOfBounds` at the same address,
or the same refusal. -/
def SameOutcome : Host.Outcome State Fault Refusal → Host.Outcome State Fault Refusal → Prop
  | .next t, .next u => t = u
  | .fault (.outOfBounds _ a), .fault (.outOfBounds _ b) => a = b
  | .refused p, .refused q => p = q
  | _, _ => False

/-- The block itself after a step from `s`, for what the outcomes of `step` leave out: the next state; after `OutOfBounds`
the HALTED block of R132; a HALTED block that nothing is presented to, as it is; after an illegal command word the block as
it was, with that transaction answered ILLEGAL (R67); none where a transaction is not accepted (U9). -/
def blockAfter (s : State) : Option State :=
  match step s with
  | .next t => some t
  | .fault (.outOfBounds _ _) => some (haltBlock s)
  | .fault .blockHalted => some s
  | .refused (.illegalCommand _ _) => some (rejectIllegal (s.setRequests s.requests.tail))
  | .refused _ => none

/-- The other register (R20, R23). -/
def otherReg : Reg → Reg
  | .reg1 => .reg2
  | .reg2 => .reg1

/-- A command with the other register in its register operand; `swap` names none (R23). -/
def renameReg : Instr → Instr
  | .mov dest src => .mov dest (otherReg src)
  | .sub dest src => .sub (otherReg dest) src
  | .stc addr reg => .stc addr (otherReg reg)
  | .load reg addr => .load (otherReg reg) addr
  | .swap a b => .swap a b

/-- Every address a command accesses is inside the memory: below 2048 (R43, R131); for `swap` the scratch address too. -/
def CommandInBounds : Instr → Prop
  | .mov dest _ => dest < Config.memBytes
  | .sub _ src => src < Config.memBytes
  | .stc addr _ => addr < Config.memBytes
  | .load _ addr => addr < Config.memBytes
  | .swap a b => Config.tempAddr < Config.memBytes ∧ a < Config.memBytes ∧ b < Config.memBytes

/-- The host's next transaction is a reset. -/
abbrev State.resetNext (s : State) : Prop := s.requests.head? = some .reset

/-- The next step runs a `sub` into `r`, unless it takes a reset: the command it runs at once has one in its microroutine, or
the micro-step it runs is one (R22, R81, R97). -/
def State.subNext (s : State) (r : Reg) : Prop :=
  (∃ w rest i a, s.seq = .idle ∧ s.requests = .command w :: rest ∧ decode w = .ok i ∧ Prim.sub r a ∈ rom i) ∨
  (∃ c upc a, s.seq = .run c upc ∧ (rom c)[upc]? = some (.sub r a))

/-- Nothing has written `x[r]` since reset (R32): a run after reset begins, or a reset transaction was taken from any state,
and no step since then ran a `sub` into `r`, the one writer of a register beside reset (R22). -/
inductive NotWrittenSinceReset (r : Reg) : State → Prop where
  /-- right after reset, whatever the host then presents (R121) -/
  | start (l : List Request) : NotWrittenSinceReset r (State.runStart l)
  /-- right after a reset transaction, whatever the state it was taken from (R112, R151) -/
  | reset {s t : State} : s.resetNext → step s = .next t → NotWrittenSinceReset r t
  /-- a step that runs no `sub` into `r` -/
  | step {s t : State} : NotWrittenSinceReset r s → ¬ s.subNext r → Sys2Proof.Machine.step s = .next t →
      NotWrittenSinceReset r t

/-- A state with the two registers exchanged (R23). -/
def State.exchangeRegs (s : State) : State := { s with x1 := s.x2, x2 := s.x1 }

end Sys2Proof.Machine
end

