-- ==== Sys2Proof/Certificates/Slice0/Obligations.lean ====
section
/-! DEFINITION. The statements for the provers. Each docstring names the rules of the spec it comes from. `s.word k` is
`M[k]`, `s.reg r` is `x[r]`, `s.seq = .idle` is the block ready for a command. -/

open Sys2Proof Sys2Proof.Machine

/-! ### Reset -/

/-- R31: the value of every piece of state after reset (that `seq` is IDLE is the spec's decision D18). -/
def Obligations.ResetValues : Prop :=
  State.reset.x1 = 0xFFFFFFFF#32 ∧ State.reset.x2 = 0xFFFFFFFF#32 ∧ (∀ k, State.reset.word k = 0#32) ∧
    State.reset.seq = .idle ∧ State.reset.isHalted = false ∧ State.reset.busy = false

/-- R32: in every state reached from reset, or from a reset transaction, along steps that ran no `sub` into `r`, reading `x[r]`
does not fault and gives −1: the primitives `mov` and `sub` read it so, alone or as micro-steps of a running command, and so do
the commands `mov` and `sub` in an IDLE block, at every address inside the memory. -/
def Obligations.UnwrittenRegisterReadsMinusOne : Prop :=
  ∀ (r : Reg) (s : State), NotWrittenSinceReset r s →
    s.reg r = 0xFFFFFFFF#32 ∧
    ∀ addr, addr < 2048 →
      execPrim (.mov addr r) s = .ok (s.setWord (addr / 4) 0xFFFFFFFF#32) ∧
      execPrim (.sub r addr) s = .ok (s.setReg r (wrapSub 0xFFFFFFFF#32 (s.word (addr / 4)))) ∧
      (s.seq = .idle →
        (∃ t, exec (.mov addr r) s = .next t ∧ t.word (addr / 4) = 0xFFFFFFFF#32) ∧
        (∃ t, exec (.sub r addr) s = .next t ∧ t.reg r = wrapSub 0xFFFFFFFF#32 (s.word (addr / 4))))

/-- R112, R150, R151 (the spec's decision D18): in any state, with `seq` IDLE, RUN or HALTED, a reset presented by the host
gives the reset state; what the host has still to present and the model's own counter stay (log entries 1 and 8). -/
def Obligations.ResetFromEveryState : Prop :=
  ∀ (s : State) (rest : List Request), s.requests = .reset :: rest →
    step s = .next { State.reset with requests := rest, freeCounter := s.freeCounter }

/-! ### Address translation and memory -/

/-- R42, R43: the index is the address divided by 4, and an index of 512 or more, that is an address of 2048 or more, is the
fault: neither wrapped nor clamped. -/
def Obligations.TranslatorDividesAndChecks : Prop :=
  (∀ addr, addr < 2048 → ∃ k, xlate addr = .ok k ∧ 4 * k ≤ addr ∧ addr < 4 * k + 4 ∧ k < 512) ∧
    (∀ addr, 2048 ≤ addr → xlate addr = .error addr)

/-- R46, R47 (the spec's decision D3): a misaligned address reads and writes the whole word that contains it, and two
addresses inside the memory name the same word exactly when their indices are equal. -/
def Obligations.MisalignedAddressNamesItsWord : Prop :=
  (∀ (addr : Nat) (s : State) (v : Word), addr < 2048 →
    memRead addr s = memRead (4 * (addr / 4)) s ∧ memWrite addr v s = memWrite (4 * (addr / 4)) v s) ∧
  (∀ a b, a < 2048 → b < 2048 → (xlate a = xlate b ↔ a / 4 = b / 4))

/-- R50: every word is plain storage. A read returns the last value written to its index, 0 from reset if none; a write
replaces that word and has no other effect. -/
def Obligations.ReadReturnsLastWrite : Prop :=
  (∀ a, a < 2048 → memRead a State.reset = .ok 0#32) ∧
  (∀ (a : Nat) (v : Word) (s t : State), memWrite a v s = .ok t →
    memRead a t = .ok v ∧ (∀ b, b / 4 ≠ a / 4 → memRead b t = memRead b s) ∧
      t.x1 = s.x1 ∧ t.x2 = s.x2 ∧ t.seq = s.seq)

/-! ### Arithmetic -/

/-- R83: the laws of wrapping subtraction (the rows self to most negative are marked by the spec as derived from R81 and
R10). -/
def Obligations.WrappingSubtractionLaws : Prop :=
  (∀ a b : Word, wrapSub a b = wrap32 (a.toInt - b.toInt)) ∧
  (∀ a b : Word, -2 ^ 31 ≤ a.toInt - b.toInt → a.toInt - b.toInt ≤ 2 ^ 31 - 1 →
    (wrapSub a b).toInt = a.toInt - b.toInt) ∧
  (∀ a b : Word, 2 ^ 31 ≤ a.toInt - b.toInt → (wrapSub a b).toInt = a.toInt - b.toInt - 2 ^ 32) ∧
  (∀ a b : Word, a.toInt - b.toInt < -2 ^ 31 → (wrapSub a b).toInt = a.toInt - b.toInt + 2 ^ 32) ∧
  (∀ a : Word, wrapSub a a = 0#32) ∧
  (∀ a : Word, wrapSub a 0#32 = a) ∧
  (∀ b : Word, wrapSub 0#32 b = wrap32 (-b.toInt)) ∧
  (∀ b : Word, wrapSub 0#32 (wrapSub 0#32 b) = b) ∧
  (∀ a b : Word, wrapSub (wrapSub a b) (wrapSub 0#32 b) = a) ∧
  (∀ a b c : Word, wrapSub (wrapSub a b) c = wrapSub (wrapSub a c) b) ∧
  wrapSub 0#32 0x80000000#32 = 0x80000000#32

/-! ### The five commands: effect and completion -/

/-- R80: `mov dest, src` stores the register, whole word; nothing else of registers and memory changes; an address of 2048 or
more is the fault; the words that spell it. -/
def Obligations.MovStoresRegister : Prop :=
  (∀ (s : State) (dest : Nat) (src : Reg), s.seq = .idle → dest < 2048 →
    ∃ t, exec (.mov dest src) s = .next t ∧ t.word (dest / 4) = s.reg src ∧
      (∀ k, k ≠ dest / 4 → t.word k = s.word k) ∧ t.x1 = s.x1 ∧ t.x2 = s.x2) ∧
  (∀ (s : State) (dest : Nat) (src : Reg), s.seq = .idle → 2048 ≤ dest →
    exec (.mov dest src) s = .fault (.outOfBounds (.command (.mov dest src)) dest)) ∧
  (∀ (w : CmdWord) (dest : Nat) (src : Reg), decode w = .ok (.mov dest src) ↔
    opField w = 1 ∧ rsvField w = 0 ∧ regField w = bitOfReg src ∧ addrAField w = dest ∧ addrBField w = 0)

/-- R81: `sub dest, src` subtracts the word from the register, wrapping; the other register and all of memory are unchanged;
an address of 2048 or more is the fault; the words that spell it. -/
def Obligations.SubSubtractsWord : Prop :=
  (∀ (s : State) (dest : Reg) (src : Nat), s.seq = .idle → src < 2048 →
    ∃ t, exec (.sub dest src) s = .next t ∧ t.reg dest = wrapSub (s.reg dest) (s.word (src / 4)) ∧
      (∀ q, q ≠ dest → t.reg q = s.reg q) ∧ (∀ k, t.word k = s.word k)) ∧
  (∀ (s : State) (dest : Reg) (src : Nat), s.seq = .idle → 2048 ≤ src →
    exec (.sub dest src) s = .fault (.outOfBounds (.command (.sub dest src)) src)) ∧
  (∀ (w : CmdWord) (dest : Reg) (src : Nat), decode w = .ok (.sub dest src) ↔
    opField w = 2 ∧ rsvField w = 0 ∧ regField w = bitOfReg dest ∧ addrAField w = src ∧ addrBField w = 0)

/-- R91: `stc addr, reg` leaves the register 0 and its old value in memory, from every starting state; nothing else changes;
an address of 2048 or more is the fault; its microroutine; the words that spell it. -/
def Obligations.StcStoresAndClears : Prop :=
  (∀ (s : State) (addr : Nat) (reg : Reg), s.seq = .idle → addr < 2048 →
    ∃ t, exec (.stc addr reg) s = .next t ∧ t.reg reg = 0#32 ∧ t.word (addr / 4) = s.reg reg ∧
      (∀ q, q ≠ reg → t.reg q = s.reg q) ∧ (∀ k, k ≠ addr / 4 → t.word k = s.word k)) ∧
  (∀ (s : State) (addr : Nat) (reg : Reg), s.seq = .idle → 2048 ≤ addr →
    exec (.stc addr reg) s = .fault (.outOfBounds (.command (.stc addr reg)) addr)) ∧
  (∀ (addr : Nat) (reg : Reg), rom (.stc addr reg) = [.mov addr reg, .sub reg addr]) ∧
  (∀ (w : CmdWord) (addr : Nat) (reg : Reg), decode w = .ok (.stc addr reg) ↔
    opField w = 3 ∧ rsvField w = 0 ∧ regField w = bitOfReg reg ∧ addrAField w = addr ∧ addrBField w = 0)

/-- R92: `load reg, addr` of a register that holds 0 gives it the word and leaves all of memory and the other register as they
were; an address of 2048 or more is the fault; the words that spell it. The clause that gives its microroutine is the spec's own
reading of its source (decision D10, log entry 13). -/
def Obligations.LoadReadsWordIntoZeroRegister : Prop :=
  (∀ (s : State) (reg : Reg) (addr : Nat), s.seq = .idle → addr < 2048 → s.reg reg = 0#32 →
    ∃ t, exec (.load reg addr) s = .next t ∧ t.reg reg = s.word (addr / 4) ∧
      (∀ q, q ≠ reg → t.reg q = s.reg q) ∧ (∀ k, t.word k = s.word k)) ∧
  (∀ (s : State) (reg : Reg) (addr : Nat), s.seq = .idle → 2048 ≤ addr →
    exec (.load reg addr) s = .fault (.outOfBounds (.command (.load reg addr)) addr)) ∧
  (∀ (reg : Reg) (addr : Nat), rom (.load reg addr) =
    [.sub reg addr, .mov addr reg, .sub reg addr, .sub reg addr, .mov addr reg]) ∧
  (∀ (w : CmdWord) (reg : Reg) (addr : Nat), decode w = .ok (.load reg addr) ↔
    opField w = 4 ∧ rsvField w = 0 ∧ regField w = bitOfReg reg ∧ addrAField w = addr ∧ addrBField w = 0)

/-- R93, R155: `load` with any register content `r0` ends with the register and the word both at `v -% r0`; it is no fault.
The spec marks R93 as derived from R92 and as its decision D13. -/
def Obligations.LoadWithoutPreconditionSubtracts : Prop :=
  ∀ (s : State) (reg : Reg) (addr : Nat), s.seq = .idle → addr < 2048 →
    ∃ t, exec (.load reg addr) s = .next t ∧
      t.reg reg = wrapSub (s.word (addr / 4)) (s.reg reg) ∧
      t.word (addr / 4) = wrapSub (s.word (addr / 4)) (s.reg reg) ∧
      (∀ q, q ≠ reg → t.reg q = s.reg q) ∧ (∀ k, k ≠ addr / 4 → t.word k = s.word k)

/-- R153 (3): a `load` of a register that still holds its reset value gives `v + 1`. The spec infers it from R93. -/
def Obligations.LoadAfterResetAddsOne : Prop :=
  ∀ (s : State) (reg : Reg) (addr : Nat), s.seq = .idle → addr < 2048 → s.reg reg = 0xFFFFFFFF#32 →
    ∃ t, exec (.load reg addr) s = .next t ∧
      t.reg reg = s.word (addr / 4) + 1#32 ∧ t.word (addr / 4) = s.word (addr / 4) + 1#32

/-- R94: `swap a, b` with the hardware's scratch address exchanges the two words and leaves both registers 0, whatever the
registers held; the scratch word ends with the old `Reg2` (that clause the spec marks as derived from R91 and D11); every
other word is unchanged; the words that spell it. -/
def Obligations.SwapExchangesWords : Prop :=
  (∀ (s : State) (a b : Nat), s.seq = .idle → a < 2048 → b < 2048 →
    a / 4 ≠ Config.tempAddr / 4 → b / 4 ≠ Config.tempAddr / 4 →
    ∃ t, exec (.swap a b) s = .next t ∧ t.word (a / 4) = s.word (b / 4) ∧ t.word (b / 4) = s.word (a / 4) ∧
      t.x1 = 0#32 ∧ t.x2 = 0#32 ∧ t.word (Config.tempAddr / 4) = s.x2 ∧
      (∀ k, k ≠ a / 4 → k ≠ b / 4 → k ≠ Config.tempAddr / 4 → t.word k = s.word k)) ∧
  (∀ (w : CmdWord) (a b : Nat), decode w = .ok (.swap a b) ↔
    opField w = 5 ∧ rsvField w = 0 ∧ regField w = 0 ∧ addrAField w = a ∧ addrBField w = b)

/-- R94, D12, U13: the same for every scratch address a block may be configured with, and where it faults: at the first of the
scratch address, `a` and `b` that is out of bounds. -/
def Obligations.SwapWithAnyScratchAddress : Prop :=
  (∀ (T a b : Nat) (s : State), s.seq = .idle → T < 2048 → a < 2048 → b < 2048 → a / 4 ≠ T / 4 → b / 4 ≠ T / 4 →
    ∃ t, execSwapWith T a b s = .next t ∧ t.word (a / 4) = s.word (b / 4) ∧ t.word (b / 4) = s.word (a / 4) ∧
      t.x1 = 0#32 ∧ t.x2 = 0#32 ∧ t.word (T / 4) = s.x2 ∧
      (∀ k, k ≠ a / 4 → k ≠ b / 4 → k ≠ T / 4 → t.word k = s.word k)) ∧
  (∀ (T a b : Nat) (s : State), s.seq = .idle → 2048 ≤ T →
    execSwapWith T a b s = .fault (.outOfBounds (.command (.swap a b)) T)) ∧
  (∀ (T a b : Nat) (s : State), s.seq = .idle → T < 2048 → 2048 ≤ a →
    execSwapWith T a b s = .fault (.outOfBounds (.command (.swap a b)) a)) ∧
  (∀ (T a b : Nat) (s : State), s.seq = .idle → T < 2048 → a < 2048 → 2048 ≤ b →
    execSwapWith T a b s = .fault (.outOfBounds (.command (.swap a b)) b))

/-- R95, R156: the four cases of aliased operands, by word index, for every scratch address. The spec marks them as derived
from the micro-steps and as its decision D13. -/
def Obligations.SwapWithAliasedOperands : Prop :=
  ∀ (T a b : Nat) (s : State), s.seq = .idle → T < 2048 → a < 2048 → b < 2048 →
    ∃ t, execSwapWith T a b s = .next t ∧ t.x1 = 0#32 ∧ t.x2 = 0#32 ∧
      (∀ k, k ≠ a / 4 → k ≠ b / 4 → k ≠ T / 4 → t.word k = s.word k) ∧
      (a / 4 = b / 4 → a / 4 ≠ T / 4 → t.word (a / 4) = s.word (a / 4) ∧ t.word (T / 4) = s.x2) ∧
      (a / 4 = T / 4 → b / 4 ≠ T / 4 → t.word (a / 4) = s.word (b / 4) ∧ t.word (b / 4) = s.x2) ∧
      (b / 4 = T / 4 → a / 4 ≠ T / 4 → t.word (a / 4) = s.x2 ∧ t.word (b / 4) = s.word (a / 4)) ∧
      (a / 4 = T / 4 → b / 4 = T / 4 → t.word (a / 4) = s.x2)

/-- R96: (a) `swap` twice on the same pair restores both words, both registers are 0 after each, and the scratch word is 0
after the second; (b) after any `swap`, aliased operands too, both registers are 0. -/
def Obligations.SwapTwiceRestoresThePair : Prop :=
  (∀ (s : State) (a b : Nat), s.seq = .idle → a < 2048 → b < 2048 →
    a / 4 ≠ Config.tempAddr / 4 → b / 4 ≠ Config.tempAddr / 4 →
    ∃ t u, exec (.swap a b) s = .next t ∧ exec (.swap a b) t = .next u ∧
      t.x1 = 0#32 ∧ t.x2 = 0#32 ∧ u.x1 = 0#32 ∧ u.x2 = 0#32 ∧
      u.word (a / 4) = s.word (a / 4) ∧ u.word (b / 4) = s.word (b / 4) ∧
      u.word (Config.tempAddr / 4) = 0#32) ∧
  (∀ (s t : State) (a b : Nat), exec (.swap a b) s = .next t → t.x1 = 0#32 ∧ t.x2 = 0#32)

/-! ### The commands: frames, answers, faults -/

/-- R80, R22: the frame of `mov`, a form that stores: no register changes, and no byte outside the word at the address it
stores to, computed by the translator as the meaning computes it. -/
def Obligations.MovFrame : Prop :=
  ∀ (s t : State) (dest : Nat) (src : Reg), exec (.mov dest src) s = .next t →
    t.x1 = s.x1 ∧ t.x2 = s.x2 ∧ t.requests = s.requests ∧ t.freeCounter = s.freeCounter ∧
      ∀ k, xlate dest = .ok k → ∀ b, xlate b ≠ .ok k → memRead b t = memRead b s

/-- R81, R22: the frame of `sub`, a form that stores nothing: the other register and every word of memory are unchanged. -/
def Obligations.SubFrame : Prop :=
  ∀ (s t : State) (dest : Reg) (src : Nat), exec (.sub dest src) s = .next t →
    (∀ q, q ≠ dest → t.reg q = s.reg q) ∧ t.requests = s.requests ∧ t.freeCounter = s.freeCounter ∧
      ∀ b, memRead b t = memRead b s

/-- R91, R92, R22: the frame of `stc` and `load`: only the register named and the word at the address named change. -/
def Obligations.StcAndLoadFrame : Prop :=
  ∀ (i : Instr) (s t : State) (addr : Nat) (reg : Reg), i = .stc addr reg ∨ i = .load reg addr →
    exec i s = .next t →
    (∀ q, q ≠ reg → t.reg q = s.reg q) ∧ t.requests = s.requests ∧ t.freeCounter = s.freeCounter ∧
      ∀ k, xlate addr = .ok k → ∀ b, xlate b ≠ .ok k → memRead b t = memRead b s

/-- R94: the frame of `swap`: both registers are its destinations; in memory only the words at its scratch address and its two
operands change. -/
def Obligations.SwapFrame : Prop :=
  ∀ (s t : State) (a b : Nat), exec (.swap a b) s = .next t →
    t.requests = s.requests ∧ t.freeCounter = s.freeCounter ∧
      ∀ i j k, xlate Config.tempAddr = .ok i → xlate a = .ok j → xlate b = .ok k →
        ∀ c, xlate c ≠ .ok i → xlate c ≠ .ok j → xlate c ≠ .ok k → memRead c t = memRead c s

/-- R85, R113 (the spec's decisions D9, D14, D15): a command that completes answers OK, with no data, and leaves `seq` IDLE. -/
def Obligations.CompletedCommandAnswersOk : Prop :=
  ∀ (i : Instr) (s t : State), exec i s = .next t →
    s.seq = .idle ∧ t.seq = .idle ∧ ∃ r, t.rsp = some r ∧ statusCode r.status = 0 ∧ r.rdata = none

/-- R43, R130, R131, R134: in an IDLE block a command completes when every address it accesses is inside the memory, whatever
the registers and the memory hold (no overflow, misalignment, aliasing or unzeroed register is a fault), and raises
`OutOfBounds` otherwise. -/
def Obligations.CommandCompletesExactlyInBounds : Prop :=
  ∀ (i : Instr) (s : State), s.seq = .idle →
    (CommandInBounds i → ∃ t, exec i s = .next t) ∧
    (¬ CommandInBounds i → ∃ a, 2048 ≤ a ∧ exec i s = .fault (.outOfBounds (.command i) a))

/-- R84 (marked by the spec as derived from R80 and R81): no register-indirect access. Which fault a command takes, if any, is
fixed by its operands: two IDLE blocks, whatever they hold, both complete it or both raise the same fault. -/
def Obligations.FaultDependsOnOperandsOnly : Prop :=
  ∀ (i : Instr) (s t : State) (f : Fault), s.seq = .idle → t.seq = .idle →
    (exec i s = .fault f ↔ exec i t = .fault f)

/-- R119, R120, U9 (the spec's decisions D14, D22): a block that is not IDLE accepts no command. -/
def Obligations.CommandNeedsIdleBlock : Prop :=
  ∀ (i : Instr) (s : State), s.seq ≠ .idle → exec i s = .refused .notAccepted

/-! ### The sequencer -/

/-- R97 (marked by the spec as derived from R91, R92, R94): the rows of the micro-ROM, and R100: at most 18 of them. -/
def Obligations.MicroRomRows : Prop :=
  (∀ d r, rom (.mov d r) = [.mov d r]) ∧
  (∀ r a, rom (.sub r a) = [.sub r a]) ∧
  (∀ a r, rom (.stc a r) = [.mov a r, .sub r a]) ∧
  (∀ r a, rom (.load r a) = [.sub r a, .mov a r, .sub r a, .sub r a, .mov a r]) ∧
  (∀ a b, rom (.swap a b) =
    [.mov Config.tempAddr .reg1, .sub .reg1 Config.tempAddr, .mov Config.tempAddr .reg2, .sub .reg2 Config.tempAddr,
     .sub .reg1 a, .mov a .reg1, .sub .reg1 a, .sub .reg1 a, .mov a .reg1,
     .sub .reg2 b, .mov b .reg2, .sub .reg2 b, .sub .reg2 b, .mov b .reg2,
     .mov a .reg2, .sub .reg2 a, .mov b .reg1, .sub .reg1 b]) ∧
  (∀ i, (rom i).length ≤ 18)

/-- R90 (the spec's decisions D9, D13): the sequencer's step with `seq = RUN(c, upc)`: the primitive at `upc` runs; a fault
stops the command; the last micro-step completes it; any other goes on to `upc + 1`. -/
def Obligations.SequencerMicroStep : Prop :=
  ∀ (s : State) (c : Instr) (upc : Nat), s.seq = .run c upc → upc < (rom c).length → ¬ s.resetNext →
    ∃ p, (rom c)[upc]? = some p ∧
      (∀ a, execPrim p s = .error a → step s = .fault (.outOfBounds (.command c) a)) ∧
      (∀ u, execPrim p s = .ok u → upc + 1 = (rom c).length →
        step s = .next { u with seq := .idle, rsp := some { status := .ok, rdata := none } }) ∧
      (∀ u, execPrim p s = .ok u → upc + 1 ≠ (rom c).length →
        step s = .next { u with seq := .run c (upc + 1), rsp := none })

/-- R99, R71 (marked by the spec as derived from R90 and R97): a composite command has exactly the effect of issuing the
primitives of its row of the micro-ROM, in order, as commands of their own, stopping at the first that faults: the same next
state, or the same fault address. -/
def Obligations.CompositeEqualsItsPrimitives : Prop :=
  ∀ (i : Instr) (s : State), s.seq = .idle →
    SameOutcome (exec i s) (execAll ((rom i).map primCommand) s)

/-- R90 against R99: a command accepted and run micro-step by micro-step, one accepting step and then `len(c)` steps with no
reset arriving, ends exactly as the same command run as one transition, in its state or in its fault. That a command is
presented as `stepped` and accepted in one step of its own is the model's choice (log entry 6). -/
def Obligations.MicroStepsRefineTheCommand : Prop :=
  ∀ (s : State) (w : CmdWord) (rest : List Request) (i : Instr),
    s.seq = .idle → s.requests = .stepped w :: rest → decode w = .ok i → ¬ (s.setRequests rest).resetNext →
    Host.Core.run Sys2Proof.core ((rom i).length + 1) s = exec i (s.setRequests rest)

/-- R119 (the spec's decision D22): while a command runs the block accepts nothing but a reset: both ready outputs are 0 and a
step consumes no other transaction. -/
def Obligations.RunningCommandIsExclusive : Prop :=
  ∀ (s : State) (c : Instr) (upc : Nat), s.seq = .run c upc →
    s.cmdReady = false ∧ s.accReady = false ∧
      ∀ t, step s = .next t → ¬ s.resetNext → t.requests = s.requests

/-! ### Encoding -/

/-- R72 (marked by the spec as derived from R65 and R66): encode and decode are inverse, and two legal words that decode to
the same command are the same word. -/
def Obligations.CommandEncodingRoundTrip : Prop :=
  (∀ i : Instr, i.wf = true → decode (encode i) = .ok i) ∧
  (∀ (w : CmdWord) (i : Instr), decode w = .ok i → i.wf = true ∧ encode i = w) ∧
  (∀ (v w : CmdWord) (i : Instr), decode v = .ok i → decode w = .ok i → v = w)

/-- R65 (the spec's decisions D6, D8): a word spells a command of a row exactly when the word masked is the row's match. -/
def Obligations.DecodeFollowsMaskAndMatch : Prop :=
  ∀ w : CmdWord,
    ((∃ d r, decode w = .ok (.mov d r)) ↔ w &&& 0xFEFFFFFFFF00000000#72 = 0x100000000000000000#72) ∧
    ((∃ r a, decode w = .ok (.sub r a)) ↔ w &&& 0xFEFFFFFFFF00000000#72 = 0x200000000000000000#72) ∧
    ((∃ a r, decode w = .ok (.stc a r)) ↔ w &&& 0xFEFFFFFFFF00000000#72 = 0x300000000000000000#72) ∧
    ((∃ r a, decode w = .ok (.load r a)) ↔ w &&& 0xFEFFFFFFFF00000000#72 = 0x400000000000000000#72) ∧
    ((∃ a b, decode w = .ok (.swap a b)) ↔ w &&& 0xFF0000000000000000#72 = 0x500000000000000000#72)

/-- R67, R68 (the spec's decision D8): the illegal words, all of them. -/
def Obligations.IllegalWordsAreExactlyThese : Prop :=
  ∀ w : CmdWord, (∃ why, decode w = .error why) ↔
    (opField w = 0 ∨ 6 ≤ opField w) ∨ rsvField w ≠ 0 ∨
      (addrBField w ≠ 0 ∧ 1 ≤ opField w ∧ opField w ≤ 4) ∨ (regField w = 1 ∧ opField w = 5)

/-- R62, R63, R65, R66: a few words of the test vectors E1 to E11 of `95_test_vectors.md`, written out, and what they spell. -/
def Obligations.SampleWordsDecode : Prop :=
  decode 0x100000000000000004#72 = .ok (.mov 4 .reg1) ∧
  decode 0x210000000000000008#72 = .ok (.sub .reg2 8) ∧
  decode 0x310000000000000004#72 = .ok (.stc 4 .reg2) ∧
  decode 0x400000000000000014#72 = .ok (.load .reg1 20) ∧
  decode 0x50000007FC0000000C#72 = .ok (.swap 12 2044) ∧
  decode 0x000000000000000000#72 = .error (.unassignedOp 0) ∧
  decode 0x120000000000000004#72 = .error .reservedField ∧
  decode 0x100000000800000004#72 = .error .secondAddress ∧
  decode 0x510000000800000004#72 = .error .registerInSwap

/-! ### The step and the host's transactions -/

/-- R113: a step of an IDLE block whose next transaction is the command word of `i` is `exec` of `i`, on the state with that
transaction taken from the host's list. The second clause says the same of the word of a table row: `withFetchWord` stands
for the host presenting it (log entry 7). -/
def Obligations.StepRunsDecodedCommand : Prop :=
  (∀ (s : State) (w : CmdWord) (rest : List Request) (i : Instr),
    s.seq = .idle → s.requests = .command w :: rest → decode w = .ok i → step s = exec i (s.setRequests rest)) ∧
  (∀ (s : State) (nbits w : Nat) (i : Instr), s.seq = .idle → decodeTableWord nbits w = some i →
    step (s.withFetchWord nbits w) = exec i s)

/-- R67, R121, U7: the run has no meaning past an illegal command word: the model refuses it, whichever way it is presented. -/
def Obligations.IllegalCommandIsRefused : Prop :=
  ∀ (s : State) (w : CmdWord) (rest : List Request) (why : IllegalReason),
    s.seq = .idle → s.requests = .command w :: rest ∨ s.requests = .stepped w :: rest → decode w = .error why →
    step s = .refused (.illegalCommand w why)

/-- R67, R114, R134 (e) (the spec's decision D8): what an illegal command word does to the block itself: no register and no
word changes, `seq` stays IDLE, the response is ILLEGAL (code 2), and the next transaction is presented; whichever way the
model presents the word (log entry 6). -/
def Obligations.IllegalCommandLeavesTheBlock : Prop :=
  ∀ (s : State) (w : CmdWord) (rest : List Request) (why : IllegalReason),
    s.seq = .idle → s.requests = .command w :: rest ∨ s.requests = .stepped w :: rest → decode w = .error why →
    ∃ t, blockAfter s = some t ∧ t.x1 = s.x1 ∧ t.x2 = s.x2 ∧ (∀ k, t.word k = s.word k) ∧ t.seq = .idle ∧
      t.requests = rest ∧ ∃ r, t.rsp = some r ∧ statusCode r.status = 2

/-- R3: the processor never initiates anything on its own: with nothing presented, an IDLE block stays as it is. -/
def Obligations.NothingHappensBetweenTransactions : Prop :=
  ∀ s : State, s.seq = .idle → s.requests = [] → step s = .next s

/-- R115 (the spec's decision D16): a host read answers the word, OK, and changes no register and no word; out of range it is
the fault. -/
def Obligations.HostReadAnswersTheWord : Prop :=
  (∀ (s : State) (a : Nat) (rest : List Request), s.seq = .idle → s.requests = .read a :: rest → a < 2048 →
    ∃ t, step s = .next t ∧ t.rsp = some { status := .ok, rdata := some (s.word (a / 4)) } ∧
      t.x1 = s.x1 ∧ t.x2 = s.x2 ∧ (∀ k, t.word k = s.word k) ∧ t.seq = .idle ∧ t.requests = rest) ∧
  (∀ (s : State) (a : Nat) (rest : List Request), s.seq = .idle → s.requests = .read a :: rest → 2048 ≤ a →
    step s = .fault (.outOfBounds .hostRead a))

/-- R115 (the spec's decision D16): a host write replaces the whole word, answers OK and changes no register and no other
word; out of range it is the fault. -/
def Obligations.HostWriteReplacesTheWord : Prop :=
  (∀ (s : State) (a : Nat) (v : Word) (rest : List Request),
    s.seq = .idle → s.requests = .write a v :: rest → a < 2048 →
    ∃ t, step s = .next t ∧ t.rsp = some { status := .ok, rdata := none } ∧
      t.word (a / 4) = v ∧ (∀ k, k ≠ a / 4 → t.word k = s.word k) ∧
      t.x1 = s.x1 ∧ t.x2 = s.x2 ∧ t.seq = .idle ∧ t.requests = rest) ∧
  (∀ (s : State) (a : Nat) (v : Word) (rest : List Request),
    s.seq = .idle → s.requests = .write a v :: rest → 2048 ≤ a → step s = .fault (.outOfBounds .hostWrite a))

/-! ### Whole-machine rules -/

/-- R22, R118: the only writers of a register are `sub` and reset. Whatever a step does, a register it changes was the
destination of a `sub` of the command it ran, or of the micro-step it ran, or a reset was taken. -/
def Obligations.OnlySubAndResetWriteRegisters : Prop :=
  ∀ (s t : State) (r : Reg), step s = .next t → t.reg r ≠ s.reg r →
    s.resetNext ∨
    (∃ w rest i a, s.seq = .idle ∧ s.requests = .command w :: rest ∧ decode w = .ok i ∧ Prim.sub r a ∈ rom i) ∨
    (∃ c upc a, s.seq = .run c upc ∧ (rom c)[upc]? = some (.sub r a))

/-- R3, R33, R84: the only writers of a memory word are `mov`, the host's write and reset, and the word is the one their
address names. -/
def Obligations.OnlyMovHostAndResetWriteMemory : Prop :=
  ∀ (s t : State) (k : Nat), step s = .next t → t.word k ≠ s.word k →
    s.resetNext ∨
    (∃ w rest i a r, s.seq = .idle ∧ s.requests = .command w :: rest ∧ decode w = .ok i ∧
      Prim.mov a r ∈ rom i ∧ xlate a = .ok k) ∨
    (∃ c upc a r, s.seq = .run c upc ∧ (rom c)[upc]? = some (.mov a r) ∧ xlate a = .ok k) ∨
    (∃ a v rest, s.seq = .idle ∧ s.requests = .write a v :: rest ∧ xlate a = .ok k)

/-- R23 (marked by the spec as derived from R20 and R40): the two registers are symmetric. A command that names a register does
with the other register named, from the state with the two exchanged, exactly the same with the two exchanged. -/
def Obligations.RegistersAreSymmetric : Prop :=
  ∀ (i : Instr) (s t : State), (∀ a b, i ≠ .swap a b) → exec i s = .next t →
    exec (renameReg i) s.exchangeRegs = .next t.exchangeRegs

/-- R55: no store can change what runs next: a command leaves the host's list as it is, and what the next step does with a
command word depends on the word, not on memory. -/
def Obligations.StoreCannotChangeWhatRunsNext : Prop :=
  ∀ (i j : Instr) (s t : State) (w : CmdWord) (rest : List Request),
    exec i s = .next t → s.requests = .command w :: rest → decode w = .ok j →
    step t = exec j (t.setRequests rest)

/-- R120, R139 (the spec's decision D14): a HALTED block has no step but reset; its ready outputs are 0 and `halted` is 1. -/
def Obligations.HaltedBlockOnlyResets : Prop :=
  ∀ s : State, s.seq = .halted →
    s.cmdReady = false ∧ s.accReady = false ∧ s.isHalted = true ∧ s.busy = false ∧
      ∀ t, step s = .next t → ∃ rest, s.requests = .reset :: rest ∧
        t.x1 = 0xFFFFFFFF#32 ∧ t.x2 = 0xFFFFFFFF#32 ∧ (∀ k, t.word k = 0#32) ∧ t.seq = .idle

/-- R132, R120 (the spec's decision D14): after a step that raises `OutOfBounds` the block is HALTED with the response FAULT, it
takes no step on its own, and a reset presented to it gives the reset state. Nothing is said of its registers and memory
(R133, log entry 8). -/
def Obligations.FaultHaltsTheBlock : Prop :=
  ∀ (s : State) (op : Operation) (a : Nat), step s = .fault (.outOfBounds op a) →
    ∃ t, blockAfter s = some t ∧ t.seq = .halted ∧ (∃ r, t.rsp = some r ∧ statusCode r.status = 1) ∧
      (∀ u, step t ≠ .next u) ∧
      ∃ u, step (t.present [.reset]) = .next u ∧ u.x1 = 0xFFFFFFFF#32 ∧ u.x2 = 0xFFFFFFFF#32 ∧
        (∀ k, u.word k = 0#32) ∧ u.seq = .idle ∧ u.requests = []

/-- R111, R117 (the spec's decisions D1, D17; C9 of `90_conflicts.md`): the outputs are functions of `seq`: ready exactly when
IDLE, `busy` exactly when RUN, `halted` exactly when HALTED; the registers are observed exactly when IDLE. -/
def Obligations.OutputsFollowTheSequencer : Prop :=
  ∀ s : State,
    (s.cmdReady = true ↔ s.seq = .idle) ∧ (s.accReady = true ↔ s.seq = .idle) ∧
    (s.busy = true ↔ ∃ c upc, s.seq = .run c upc) ∧ (s.isHalted = true ↔ s.seq = .halted) ∧
    (s.seq = .idle → s.reg1Q = some s.x1 ∧ s.reg2Q = some s.x2) ∧
    (s.seq ≠ .idle → s.reg1Q = none ∧ s.reg2Q = none)

/-! ### The invariant -/

/-- R26, R25: every step keeps the canonical form of memory, inside the 512 words, and keeps `seq` in its range: a running
command is one the port can carry and `0 <= upc < len(c)`. The canonical form is the model's choice (log entry 3). -/
def Obligations.StepKeepsTheInvariant : Prop :=
  ∀ s t : State, s.Inv → step s = .next t → t.Inv

/-- R31, R25: the reset state meets that invariant, and so does the block after any fault, whatever its free memory holds. -/
def Obligations.InvariantHoldsAtReset : Prop :=
  State.reset.Inv ∧ ∀ s : State, (haltBlock s).Inv

/-- R25: in every state that meets the invariant the sequencer always finds its next micro-step: no step answers the refusal
that stands for a micro-step index out of range. -/
def Obligations.SequencerNeverLeavesItsRoutine : Prop :=
  ∀ s : State, s.Inv → step s ≠ .refused .noMicroStep

/-- R121: every state that a run of the host's transactions reaches from reset, whatever the list of transactions, meets the
invariant. -/
def Obligations.RunsReachOnlyInvariantStates : Prop :=
  ∀ (l : List Request) (n : Nat) (t : State), Host.Core.run Sys2Proof.core n (State.runStart l) = .next t → t.Inv

/-- R121, U2: a run that ends badly never ends well: once its transactions, presented after reset, have led to a fault, there
is no state in which the same list of transactions ends with all of them applied, the last answered OK and `seq` IDLE. -/
def Obligations.FaultedRunNeverEndsWell : Prop :=
  ∀ (l : List Request) (n : Nat) (f : Fault), Host.Core.run Sys2Proof.core n (State.runStart l) = .fault f →
    ¬ ∃ t, EndsWell l t
end

