-- ==== Sys2Proof/Laws/Decode.lean ====
section
/-! SUPPORT. The fields of a packed word. -/

namespace Sys2Proof

section Fields
variable {op reg b a : Nat} (hop : op < 16) (hreg : reg < 2)
include hop hreg

theorem packWord_toNat : (packWord op reg b a).toNat =
    op * 2 ^ 68 + reg * 2 ^ 64 + b % 2 ^ 32 * 2 ^ 32 + a % 2 ^ 32 := by
  simp only [packWord, BitVec.toNat_ofNat]; omega

theorem opField_packWord : opField (packWord op reg b a) = op := by
  simp only [opField, bits, packWord_toNat hop hreg]; omega

theorem rsvField_packWord : rsvField (packWord op reg b a) = 0 := by
  simp only [rsvField, bits, packWord_toNat hop hreg]; omega

theorem regField_packWord : regField (packWord op reg b a) = reg := by
  simp only [regField, bits, packWord_toNat hop hreg]; omega

theorem addrBField_packWord : addrBField (packWord op reg b a) = b % 2 ^ 32 := by
  simp only [addrBField, bits, packWord_toNat hop hreg]; omega

theorem addrAField_packWord : addrAField (packWord op reg b a) = a % 2 ^ 32 := by
  simp only [addrAField, bits, packWord_toNat hop hreg]; omega

end Fields

theorem bitOfReg_lt (r : Reg) : bitOfReg r < 2 := by cases r <;> decide

@[simp] theorem regOfBit_bitOfReg (r : Reg) : regOfBit (bitOfReg r) = r := by cases r <;> rfl

theorem bitOfReg_regOfBit (b : Nat) (h : b < 2) : bitOfReg (regOfBit b) = b := by
  interval_cases b <;> rfl

/-- The five fields are the whole word (R61). -/
theorem word_of_fields (w : CmdWord) : w.toNat =
    opField w * 2 ^ 68 + rsvField w * 2 ^ 65 + regField w * 2 ^ 64 + addrBField w * 2 ^ 32 + addrAField w := by
  have := w.isLt
  simp only [opField, rsvField, regField, addrBField, addrAField, bits]; omega

theorem opField_lt (w : CmdWord) : opField w < 16 := by simp only [opField, bits]; omega
theorem rsvField_lt (w : CmdWord) : rsvField w < 8 := by simp only [rsvField, bits]; omega
theorem regField_lt (w : CmdWord) : regField w < 2 := by simp only [regField, bits]; omega
theorem addrBField_lt (w : CmdWord) : addrBField w < 2 ^ 32 := by simp only [addrBField, bits]; omega
theorem addrAField_lt (w : CmdWord) : addrAField w < 2 ^ 32 := by simp only [addrAField, bits]; omega

/-- What the decoder has checked when it answers a command. -/
theorem decode_cases {w : CmdWord} {i : Instr} (h : decode w = .ok i) :
    rsvField w = 0 ∧
    ((opField w = 1 ∧ addrBField w = 0 ∧ i = .mov (addrAField w) (regOfBit (regField w))) ∨
     (opField w = 2 ∧ addrBField w = 0 ∧ i = .sub (regOfBit (regField w)) (addrAField w)) ∨
     (opField w = 3 ∧ addrBField w = 0 ∧ i = .stc (addrAField w) (regOfBit (regField w))) ∨
     (opField w = 4 ∧ addrBField w = 0 ∧ i = .load (regOfBit (regField w)) (addrAField w)) ∨
     (opField w = 5 ∧ regField w = 0 ∧ i = .swap (addrAField w) (addrBField w))) := by
  unfold decode at h
  split at h
  · cases h
  · next hrsv =>
    refine ⟨by simpa using hrsv, ?_⟩
    repeat' split at h
    all_goals simp_all

/-- The decoder answers a command exactly when its checks pass. -/
theorem decode_iff {w : CmdWord} {i : Instr} : decode w = .ok i ↔ rsvField w = 0 ∧
    ((opField w = 1 ∧ addrBField w = 0 ∧ i = .mov (addrAField w) (regOfBit (regField w))) ∨
     (opField w = 2 ∧ addrBField w = 0 ∧ i = .sub (regOfBit (regField w)) (addrAField w)) ∨
     (opField w = 3 ∧ addrBField w = 0 ∧ i = .stc (addrAField w) (regOfBit (regField w))) ∨
     (opField w = 4 ∧ addrBField w = 0 ∧ i = .load (regOfBit (regField w)) (addrAField w)) ∨
     (opField w = 5 ∧ regField w = 0 ∧ i = .swap (addrAField w) (addrBField w))) := by
  refine ⟨decode_cases, ?_⟩
  rintro ⟨h, ⟨h1, h2, rfl⟩ | ⟨h1, h2, rfl⟩ | ⟨h1, h2, rfl⟩ | ⟨h1, h2, rfl⟩ | ⟨h1, h2, rfl⟩⟩ <;>
    simp [decode, h, h1, h2]

theorem eq_regOfBit {b : Nat} (hb : b < 2) (r : Reg) : r = regOfBit b ↔ b = bitOfReg r := by
  interval_cases b <;> cases r <;> simp [regOfBit, bitOfReg]

/-- The five fields as bit vectors, in their order (R61): for masks of a word. -/
theorem word_eq_append (w : CmdWord) : w = w.extractLsb' 68 4 ++ w.extractLsb' 65 3 ++ w.extractLsb' 64 1 ++
    w.extractLsb' 32 32 ++ w.extractLsb' 0 32 := by
  apply BitVec.eq_of_getLsbD_eq
  intro i hi
  simp only [BitVec.getLsbD_append, BitVec.getLsbD_extractLsb']
  split_ifs with h1 h2 h3 h4
  · simp [h1]
  · rw [show 32 + (i - 32) = i by omega]; simp [h2]
  · rw [show 64 + (i - 32 - 32) = i by omega]; simp [h3]
  · rw [show 65 + (i - 32 - 32 - 1) = i by omega]; simp [h4]
  · rw [show 68 + (i - 32 - 32 - 1 - 3) = i by omega]
    have : i - 32 - 32 - 1 - 3 < 4 := by omega
    simp [this]

/-- Two concatenations are equal exactly when their parts are. -/
theorem append_eq_append_iff {m n : Nat} (a b : BitVec m) (c d : BitVec n) : a ++ c = b ++ d ↔ a = b ∧ c = d := by
  refine ⟨fun h => ?_, fun ⟨hab, hcd⟩ => by rw [hab, hcd]⟩
  have hn := congrArg BitVec.toNat h
  rw [BitVec.toNat_append, BitVec.toNat_append, ← Nat.shiftLeft_add_eq_or_of_lt c.isLt,
    ← Nat.shiftLeft_add_eq_or_of_lt d.isLt, Nat.shiftLeft_eq, Nat.shiftLeft_eq] at hn
  have hlow := congrArg (· % 2 ^ n) hn
  simp only [Nat.mul_add_mod_self_right, Nat.mod_eq_of_lt c.isLt, Nat.mod_eq_of_lt d.isLt] at hlow
  rw [hlow] at hn
  exact ⟨BitVec.eq_of_toNat_eq (Nat.eq_of_mul_eq_mul_right (Nat.two_pow_pos n) (by omega)), BitVec.eq_of_toNat_eq hlow⟩

theorem addrFits_iff (a : Nat) : addrFits a = true ↔ a < 2 ^ 32 := decide_eq_true_iff

/-- A decoded command is well formed: its addresses come from 32-bit fields (R64). -/
theorem decode_wf {w : CmdWord} {i : Instr} (h : decode w = .ok i) : i.wf = true := by
  have ha := addrAField_lt w
  have hb := addrBField_lt w
  obtain ⟨-, ⟨-, -, rfl⟩ | ⟨-, -, rfl⟩ | ⟨-, -, rfl⟩ | ⟨-, -, rfl⟩ | ⟨-, -, rfl⟩⟩ := decode_cases h <;>
    simp only [Instr.wf, addrFits_iff, Bool.and_eq_true] <;> omega

end Sys2Proof
end

