-- ==== Sys2Proof/Laws/State.lean ====
section
/-! SUPPORT. One lemma per field and update of the state, so that no proof unfolds a record update. -/

namespace Sys2Proof.Machine

section SetReg
variable (s : State) (r q : Reg) (v : Word)

@[simp] theorem setReg_x1_reg1 : (s.setReg .reg1 v).x1 = v := rfl
@[simp] theorem setReg_x1_reg2 : (s.setReg .reg2 v).x1 = s.x1 := rfl
@[simp] theorem setReg_x2_reg1 : (s.setReg .reg1 v).x2 = s.x2 := rfl
@[simp] theorem setReg_x2_reg2 : (s.setReg .reg2 v).x2 = v := rfl
@[simp] theorem setReg_mem : (s.setReg r v).mem = s.mem := by cases r <;> rfl
@[simp] theorem setReg_seq : (s.setReg r v).seq = s.seq := by cases r <;> rfl
@[simp] theorem setReg_requests : (s.setReg r v).requests = s.requests := by cases r <;> rfl
@[simp] theorem setReg_rsp : (s.setReg r v).rsp = s.rsp := by cases r <;> rfl
@[simp] theorem setReg_freeCounter : (s.setReg r v).freeCounter = s.freeCounter := by cases r <;> rfl
@[simp] theorem setReg_word (k : Nat) : (s.setReg r v).word k = s.word k := by cases r <;> rfl
@[simp] theorem setReg_reg : (s.setReg r v).reg r = v := by cases r <;> rfl
theorem setReg_reg_of_ne (h : q ≠ r) : (s.setReg r v).reg q = s.reg q := by
  cases r <;> cases q <;> first | rfl | exact absurd rfl h
@[simp] theorem reg_reg1 : s.reg .reg1 = s.x1 := rfl
@[simp] theorem reg_reg2 : s.reg .reg2 = s.x2 := rfl

end SetReg

section SetWord
variable (s : State) (k : Nat) (v : Word)

@[simp] theorem setWord_x1 : (s.setWord k v).x1 = s.x1 := rfl
@[simp] theorem setWord_x2 : (s.setWord k v).x2 = s.x2 := rfl
@[simp] theorem setWord_mem : (s.setWord k v).mem = Memory.put s.mem k v := rfl
@[simp] theorem setWord_seq : (s.setWord k v).seq = s.seq := rfl
@[simp] theorem setWord_requests : (s.setWord k v).requests = s.requests := rfl
@[simp] theorem setWord_rsp : (s.setWord k v).rsp = s.rsp := rfl
@[simp] theorem setWord_freeCounter : (s.setWord k v).freeCounter = s.freeCounter := rfl
@[simp] theorem setWord_reg (r : Reg) : (s.setWord k v).reg r = s.reg r := by cases r <;> rfl

@[simp] theorem setReg_setReg (r : Reg) (w : Word) : (s.setReg r v).setReg r w = s.setReg r w := by cases r <;> rfl
/-- Writes of a register and of a word commute. -/
theorem setReg_setWord (r : Reg) (w : Word) : (s.setReg r w).setWord k v = (s.setWord k v).setReg r w := by
  cases r <;> rfl

end SetWord

section Complete
variable (s : State) (d : Option Word)

@[simp] theorem complete_x1 : (s.complete d).x1 = s.x1 := rfl
@[simp] theorem complete_x2 : (s.complete d).x2 = s.x2 := rfl
@[simp] theorem complete_mem : (s.complete d).mem = s.mem := rfl
@[simp] theorem complete_seq : (s.complete d).seq = .idle := rfl
@[simp] theorem complete_requests : (s.complete d).requests = s.requests := rfl
@[simp] theorem complete_rsp : (s.complete d).rsp = some { status := .ok, rdata := d } := rfl
@[simp] theorem complete_freeCounter : (s.complete d).freeCounter = s.freeCounter := rfl
@[simp] theorem complete_reg (r : Reg) : (s.complete d).reg r = s.reg r := by cases r <;> rfl
@[simp] theorem complete_word (k : Nat) : (s.complete d).word k = s.word k := rfl

end Complete

section Running
variable (s : State) (c : Instr) (u : Nat)

@[simp] theorem running_x1 : (s.running c u).x1 = s.x1 := rfl
@[simp] theorem running_x2 : (s.running c u).x2 = s.x2 := rfl
@[simp] theorem running_mem : (s.running c u).mem = s.mem := rfl
@[simp] theorem running_seq : (s.running c u).seq = .run c u := rfl
@[simp] theorem running_requests : (s.running c u).requests = s.requests := rfl
@[simp] theorem running_rsp : (s.running c u).rsp = none := rfl
@[simp] theorem running_freeCounter : (s.running c u).freeCounter = s.freeCounter := rfl
@[simp] theorem running_reg (r : Reg) : (s.running c u).reg r = s.reg r := by cases r <;> rfl
@[simp] theorem running_word (k : Nat) : (s.running c u).word k = s.word k := rfl

end Running

section Reset
variable (s : State)

@[simp] theorem resetBlock_x1 : (resetBlock s).x1 = Config.regReset := rfl
@[simp] theorem resetBlock_x2 : (resetBlock s).x2 = Config.regReset := rfl
@[simp] theorem resetBlock_mem : (resetBlock s).mem = [] := rfl
@[simp] theorem resetBlock_seq : (resetBlock s).seq = .idle := rfl
@[simp] theorem resetBlock_requests : (resetBlock s).requests = s.requests := rfl
@[simp] theorem resetBlock_rsp : (resetBlock s).rsp = none := rfl
@[simp] theorem resetBlock_freeCounter : (resetBlock s).freeCounter = s.freeCounter := rfl

@[simp] theorem rejectIllegal_x1 : (rejectIllegal s).x1 = s.x1 := rfl
@[simp] theorem rejectIllegal_x2 : (rejectIllegal s).x2 = s.x2 := rfl
@[simp] theorem rejectIllegal_mem : (rejectIllegal s).mem = s.mem := rfl
@[simp] theorem rejectIllegal_seq : (rejectIllegal s).seq = s.seq := rfl
@[simp] theorem rejectIllegal_requests : (rejectIllegal s).requests = s.requests := rfl
@[simp] theorem rejectIllegal_rsp : (rejectIllegal s).rsp = some { status := .illegal, rdata := none } := rfl

@[simp] theorem haltBlock_seq : (haltBlock s).seq = .halted := rfl
@[simp] theorem haltBlock_requests : (haltBlock s).requests = [] := rfl
@[simp] theorem haltBlock_rsp : (haltBlock s).rsp = some { status := .fault, rdata := none } := rfl
@[simp] theorem haltBlock_mem : (haltBlock s).mem = lostMemory s.freeCounter Config.memWords := rfl
@[simp] theorem haltBlock_freeCounter : (haltBlock s).freeCounter = s.freeCounter + 1 := rfl

end Reset

section Present
variable (s : State) (l : List Request)

@[simp] theorem present_x1 : (s.present l).x1 = s.x1 := rfl
@[simp] theorem present_x2 : (s.present l).x2 = s.x2 := rfl
@[simp] theorem present_mem : (s.present l).mem = s.mem := rfl
@[simp] theorem present_seq : (s.present l).seq = s.seq := rfl
@[simp] theorem present_requests : (s.present l).requests = s.requests ++ l := rfl

end Present

section SetRequests
variable (s : State) (l : List Request)

@[simp] theorem setRequests_x1 : (s.setRequests l).x1 = s.x1 := rfl
@[simp] theorem setRequests_x2 : (s.setRequests l).x2 = s.x2 := rfl
@[simp] theorem setRequests_mem : (s.setRequests l).mem = s.mem := rfl
@[simp] theorem setRequests_seq : (s.setRequests l).seq = s.seq := rfl
@[simp] theorem setRequests_requests : (s.setRequests l).requests = l := rfl
@[simp] theorem setRequests_rsp : (s.setRequests l).rsp = s.rsp := rfl
@[simp] theorem setRequests_freeCounter : (s.setRequests l).freeCounter = s.freeCounter := rfl
@[simp] theorem setRequests_reg (r : Reg) : (s.setRequests l).reg r = s.reg r := by cases r <;> rfl
@[simp] theorem setRequests_word (k : Nat) : (s.setRequests l).word k = s.word k := rfl

end SetRequests

section Exchange
variable (s : State)

@[simp] theorem exchangeRegs_x1 : s.exchangeRegs.x1 = s.x2 := rfl
@[simp] theorem exchangeRegs_x2 : s.exchangeRegs.x2 = s.x1 := rfl
@[simp] theorem exchangeRegs_mem : s.exchangeRegs.mem = s.mem := rfl
@[simp] theorem exchangeRegs_seq : s.exchangeRegs.seq = s.seq := rfl
@[simp] theorem exchangeRegs_reg (r : Reg) : s.exchangeRegs.reg (otherReg r) = s.reg r := by cases r <;> rfl
@[simp] theorem exchangeRegs_word (k : Nat) : s.exchangeRegs.word k = s.word k := rfl

end Exchange

end Sys2Proof.Machine
end

