-- ==== Sys2Proof/Laws/Memory.lean ====
section
/-! SUPPORT. What a word reads as after a write, on any list, and that every memory operation keeps the canonical form. -/

namespace Sys2Proof.Machine

@[simp] theorem word_nil (k : Nat) : Memory.word [] k = 0#32 := rfl

theorem word_insert_self (m : Memory) (k : Nat) (v : Word) (h : ∀ c ∈ m, c.1 ≠ k) :
    Memory.word (Memory.insert m (k, v)) k = v := by
  induction m with
  | nil => simp [Memory.insert, Memory.word]
  | cons d m ih =>
    have hd : d.1 ≠ k := h d (by simp)
    have hm : ∀ c ∈ m, c.1 ≠ k := fun c hc => h c (by simp [hc])
    by_cases hlt : k < d.1
    · simp [Memory.insert, hlt, Memory.word]
    · simp [Memory.insert, hlt, Memory.word, hd, ih hm]

theorem word_insert_of_ne (m : Memory) (k j : Nat) (v : Word) (h : k ≠ j) :
    Memory.word (Memory.insert m (k, v)) j = Memory.word m j := by
  induction m with
  | nil => simp [Memory.insert, Memory.word, h]
  | cons d m ih =>
    by_cases hlt : k < d.1
    · simp [Memory.insert, hlt, Memory.word, h]
    · simp [Memory.insert, hlt, Memory.word, ih]

theorem word_filter_self (m : Memory) (k : Nat) : Memory.word (m.filter (fun c => c.1 ≠ k)) k = 0#32 := by
  induction m with
  | nil => rfl
  | cons d m ih =>
    by_cases hd : d.1 = k
    · simpa [hd] using ih
    · simpa [hd, Memory.word] using ih

theorem word_filter_of_ne (m : Memory) (k j : Nat) (h : k ≠ j) :
    Memory.word (m.filter (fun c => c.1 ≠ k)) j = Memory.word m j := by
  induction m with
  | nil => rfl
  | cons d m ih =>
    by_cases hd : d.1 = k
    · have hj : d.1 ≠ j := hd ▸ h
      simpa [hd, Memory.word, h] using ih
    · by_cases hj : d.1 = j
      · simp [hj, Memory.word, Ne.symm h]
      · simpa [hd, hj, Memory.word] using ih

/-- The word just written. -/
@[simp] theorem word_put_self (m : Memory) (k : Nat) (v : Word) : Memory.word (Memory.put m k v) k = v := by
  unfold Memory.put
  split
  · next h => rw [word_filter_self]; exact h.symm
  · exact word_insert_self _ _ _ (by simp)

/-- Every other word. -/
theorem word_put_of_ne (m : Memory) (k j : Nat) (v : Word) (h : k ≠ j) :
    Memory.word (Memory.put m k v) j = Memory.word m j := by
  unfold Memory.put
  split
  · exact word_filter_of_ne m k j h
  · rw [word_insert_of_ne _ _ _ _ h, word_filter_of_ne m k j h]

@[simp] theorem setWord_word_self (s : State) (k : Nat) (v : Word) : (s.setWord k v).word k = v :=
  word_put_self s.mem k v

theorem setWord_word_of_ne (s : State) (k j : Nat) (v : Word) (h : k ≠ j) :
    (s.setWord k v).word j = s.word j :=
  word_put_of_ne s.mem k j v h

/-- Both cases at once. -/
theorem setWord_word (s : State) (k j : Nat) (v : Word) :
    (s.setWord k v).word j = if k = j then v else s.word j := by
  by_cases h : k = j
  · subst h; simp
  · simp [h, setWord_word_of_ne s k j v h]

theorem filter_insert (m : Memory) (k : Nat) (v : Word) :
    (Memory.insert m (k, v)).filter (fun c => c.1 ≠ k) = m.filter (fun c => c.1 ≠ k) := by
  induction m with
  | nil => simp [Memory.insert]
  | cons d m ih =>
    by_cases hlt : k < d.1
    · simp [Memory.insert, hlt]
    · simp only [Memory.insert, hlt, if_false, List.filter_cons, ih]

/-- The second of two writes to one word replaces the first, on any list. -/
@[simp] theorem put_put (m : Memory) (k : Nat) (v w : Word) :
    Memory.put (Memory.put m k v) k w = Memory.put m k w := by
  have h : (Memory.put m k v).filter (fun c => c.1 ≠ k) = m.filter (fun c => c.1 ≠ k) := by
    unfold Memory.put
    split
    · rw [List.filter_filter]; simp
    · rw [filter_insert, List.filter_filter]; simp
  unfold Memory.put at h ⊢
  rw [h]

@[simp] theorem setWord_setWord (s : State) (k : Nat) (v w : Word) :
    (s.setWord k v).setWord k w = s.setWord k w := by
  simp [State.setWord]

theorem mem_insert (m : Memory) (c d : Nat × Word) : c ∈ Memory.insert m d ↔ c = d ∨ c ∈ m := by
  induction m with
  | nil => simp [Memory.insert]
  | cons e m ih =>
    by_cases hlt : d.1 < e.1
    · simp [Memory.insert, hlt]
    · simp only [Memory.insert, hlt, if_false, List.mem_cons, ih]; tauto

theorem insert_rising (m : Memory) (d : Nat × Word) (hm : m.Pairwise (fun c e => c.1 < e.1))
    (hd : ∀ c ∈ m, c.1 ≠ d.1) : (Memory.insert m d).Pairwise (fun c e => c.1 < e.1) := by
  induction m with
  | nil => simp [Memory.insert]
  | cons e m ih =>
    rw [List.pairwise_cons] at hm
    have hne : e.1 ≠ d.1 := hd e (by simp)
    by_cases hlt : d.1 < e.1
    · simp only [Memory.insert, hlt, if_true, List.pairwise_cons, List.mem_cons]
      refine ⟨?_, hm⟩
      rintro c (rfl | hc)
      · exact hlt
      · exact hlt.trans (hm.1 c hc)
    · simp only [Memory.insert, hlt, if_false, List.pairwise_cons]
      refine ⟨?_, ih hm.2 (fun c hc => hd c (by simp [hc]))⟩
      intro c hc
      rcases (mem_insert m c d).1 hc with rfl | hc
      · omega
      · exact hm.1 c hc

theorem wf_nil : Memory.wf [] := by decide

/-- A write inside the array keeps the canonical form. -/
theorem wf_put (m : Memory) (k : Nat) (v : Word) (hk : k < 512) (h : Memory.wf m) : Memory.wf (Memory.put m k v) := by
  have hfilter : Memory.wf (m.filter (fun c => c.1 ≠ k)) :=
    ⟨h.1.filter _, fun c hc => h.2 c (List.mem_filter.1 hc).1⟩
  unfold Memory.put
  split
  · exact hfilter
  · next hv =>
    refine ⟨insert_rising _ _ hfilter.1 (by simp), fun c hc => ?_⟩
    rcases (mem_insert _ c (k, v)).1 hc with rfl | hc
    · exact ⟨by simpa using hk, hv⟩
    · exact hfilter.2 c hc

/-- The free memory after a fault is in canonical form too. -/
theorem wf_lostMemory (n k : Nat) (h : k ≤ 512) : Memory.wf (lostMemory n k) := by
  induction k with
  | zero => exact wf_nil
  | succ k ih => exact wf_put _ _ _ (by omega) (ih (by omega))

/-- What a word of it reads as: the free value of that word. -/
theorem word_lostMemory (n k j : Nat) (h : j < k) : Memory.word (lostMemory n k) j = Config.lostWord n j := by
  induction k with
  | zero => omega
  | succ k ih =>
    by_cases hj : k = j
    · subst hj; exact word_put_self _ _ _
    · exact (word_put_of_ne _ _ _ _ hj).trans (ih (by omega))

end Sys2Proof.Machine
end

