-- ==== Sys2Proof/Laws/Ops.lean ====
section
/-! SUPPORT. One lemma for each shared operation that says everything it can do. -/

namespace Sys2Proof.Machine

/-- Wrapping subtraction is subtraction of bit vectors. -/
theorem wrapSub_eq (a b : Word) : wrapSub a b = a - b := by
  apply BitVec.eq_of_toNat_eq
  simp only [wrapSub, wrap32, BitVec.toNat_ofInt, BitVec.toNat_sub]
  have := a.isLt
  have := b.isLt
  omega

theorem xlate_ok {addr : Nat} (h : addr < 2048) : xlate addr = .ok (addr / 4) := by
  have : ¬ addr / 4 ≥ 512 := by omega
  simp [xlate, this]

theorem xlate_error {addr : Nat} (h : 2048 ≤ addr) : xlate addr = .error addr := by
  have : addr / 4 ≥ 512 := by omega
  simp [xlate, this]

theorem xlate_eq_ok {addr k : Nat} : xlate addr = .ok k ↔ addr < 2048 ∧ addr / 4 = k := by
  by_cases h : addr < 2048
  · simp [xlate_ok h, h]
  · simp [xlate_error (show 2048 ≤ addr by omega), h]

theorem memRead_ok {addr : Nat} (h : addr < 2048) (s : State) : memRead addr s = .ok (s.word (addr / 4)) := by
  simp [memRead, xlate_ok h]

theorem memRead_error {addr : Nat} (h : 2048 ≤ addr) (s : State) : memRead addr s = .error addr := by
  simp [memRead, xlate_error h]

theorem memWrite_ok {addr : Nat} (h : addr < 2048) (v : Word) (s : State) :
    memWrite addr v s = .ok (s.setWord (addr / 4) v) := by
  simp [memWrite, xlate_ok h]

theorem memWrite_error {addr : Nat} (h : 2048 ≤ addr) (v : Word) (s : State) :
    memWrite addr v s = .error addr := by
  simp [memWrite, xlate_error h]

/-- Two states whose words agree at an address read alike there. -/
theorem memRead_congr {addr : Nat} {s t : State} (h : addr < 2048 → t.word (addr / 4) = s.word (addr / 4)) :
    memRead addr t = memRead addr s := by
  by_cases ha : addr < 2048
  · rw [memRead_ok ha, memRead_ok ha, h ha]
  · rw [memRead_error (by omega), memRead_error (by omega)]

theorem execPrim_mov {dest : Nat} (h : dest < 2048) (src : Reg) (s : State) :
    execPrim (.mov dest src) s = .ok (s.setWord (dest / 4) (s.reg src)) := by
  simp [execPrim, memWrite_ok h]

theorem execPrim_mov_error {dest : Nat} (h : 2048 ≤ dest) (src : Reg) (s : State) :
    execPrim (.mov dest src) s = .error dest := by
  simp [execPrim, memWrite_error h]

theorem execPrim_sub {src : Nat} (h : src < 2048) (dest : Reg) (s : State) :
    execPrim (.sub dest src) s = .ok (s.setReg dest (s.reg dest - s.word (src / 4))) := by
  simp [execPrim, memRead_ok h, wrapSub_eq]

theorem execPrim_sub_error {src : Nat} (h : 2048 ≤ src) (dest : Reg) (s : State) :
    execPrim (.sub dest src) s = .error src := by
  simp [execPrim, memRead_error h]

/-- Everything a completed primitive can have done. -/
theorem execPrim_cases {p : Prim} {s t : State} (h : execPrim p s = .ok t) :
    (∃ dest src, p = .mov dest src ∧ dest < 2048 ∧ t = s.setWord (dest / 4) (s.reg src)) ∨
    (∃ dest src, p = .sub dest src ∧ src < 2048 ∧ t = s.setReg dest (s.reg dest - s.word (src / 4))) := by
  cases p with
  | mov dest src =>
    by_cases hd : dest < 2048
    · rw [execPrim_mov hd] at h; exact .inl ⟨dest, src, rfl, hd, by simpa using h.symm⟩
    · rw [execPrim_mov_error (by omega)] at h; cases h
  | sub dest src =>
    by_cases hd : src < 2048
    · rw [execPrim_sub hd] at h; exact .inr ⟨dest, src, rfl, hd, by simpa using h.symm⟩
    · rw [execPrim_sub_error (by omega)] at h; cases h

/-- What no primitive touches. -/
theorem execPrim_frame {p : Prim} {s t : State} (h : execPrim p s = .ok t) :
    t.seq = s.seq ∧ t.requests = s.requests ∧ t.rsp = s.rsp ∧ t.freeCounter = s.freeCounter := by
  obtain ⟨d, r, -, -, rfl⟩ | ⟨r, a, -, -, rfl⟩ := execPrim_cases h <;> simp

/-- A primitive keeps the canonical form of memory. -/
theorem execPrim_wf {p : Prim} {s t : State} (h : execPrim p s = .ok t) (hs : Memory.wf s.mem) : Memory.wf t.mem := by
  obtain ⟨d, r, -, hd, rfl⟩ | ⟨r, a, -, -, rfl⟩ := execPrim_cases h
  · exact wf_put _ _ _ (by omega) hs
  · simpa using hs

/-- The address a primitive accesses: written in the primitive, never taken from the state (R84). -/
theorem execPrim_error {p : Prim} {s : State} {a : Nat} (h : execPrim p s = .error a) : 2048 ≤ a := by
  cases p with
  | mov dest src =>
    by_cases hd : dest < 2048
    · rw [execPrim_mov hd] at h; cases h
    · rw [execPrim_mov_error (by omega)] at h; cases h; omega
  | sub dest src =>
    by_cases hd : src < 2048
    · rw [execPrim_sub hd] at h; cases h
    · rw [execPrim_sub_error (by omega)] at h; cases h; omega

/-- Whether and where a primitive faults depends on its operand, not on the state (R84). -/
theorem execPrim_error_any {p : Prim} {s : State} {a : Nat} (h : execPrim p s = .error a) (t : State) :
    execPrim p t = .error a := by
  cases p with
  | mov dest src =>
    by_cases hd : dest < 2048
    · rw [execPrim_mov hd] at h; cases h
    · rw [execPrim_mov_error (by omega)] at h ⊢; exact h
  | sub dest src =>
    by_cases hd : src < 2048
    · rw [execPrim_sub hd] at h; cases h
    · rw [execPrim_sub_error (by omega)] at h ⊢; exact h

/-- A primitive neither reads nor writes `seq` and the response. -/
theorem execPrim_outputs (p : Prim) (s : State) (q : Seq) (r : Option Response) :
    execPrim p { s with seq := q, rsp := r } =
      match execPrim p s with
      | .error a => .error a
      | .ok t => .ok { t with seq := q, rsp := r } := by
  cases hp : execPrim p s with
  | error a => exact execPrim_error_any hp _
  | ok t =>
    obtain ⟨d, g, rfl, hd, rfl⟩ | ⟨g, a, rfl, ha, rfl⟩ := execPrim_cases hp
    · rw [execPrim_mov hd]; cases g <;> rfl
    · rw [execPrim_sub ha]; cases g <;> rfl

@[simp] theorem runPrims_nil (s : State) : runPrims [] s = .ok s := rfl

theorem runPrims_cons {p : Prim} {s t : State} (h : execPrim p s = .ok t) (ps : List Prim) :
    runPrims (p :: ps) s = runPrims ps t := by
  simp [runPrims, h]

theorem runPrims_cons_error {p : Prim} {s : State} {a : Nat} (h : execPrim p s = .error a) (ps : List Prim) :
    runPrims (p :: ps) s = .error a := by
  simp [runPrims, h]

theorem runPrims_append (ps qs : List Prim) (s : State) : runPrims (ps ++ qs) s =
    match runPrims ps s with
    | .error a => .error a
    | .ok t => runPrims qs t := by
  induction ps generalizing s with
  | nil => rfl
  | cons p ps ih =>
    cases hp : execPrim p s with
    | error a => rw [List.cons_append, runPrims_cons_error hp, runPrims_cons_error hp]
    | ok u => rw [List.cons_append, runPrims_cons hp, runPrims_cons hp, ih]

theorem runPrims_append_ok {ps : List Prim} {s t : State} (h : runPrims ps s = .ok t) (qs : List Prim) :
    runPrims (ps ++ qs) s = runPrims qs t := by
  rw [runPrims_append, h]

theorem runPrims_append_error {ps : List Prim} {s : State} {a : Nat} (h : runPrims ps s = .error a) (qs : List Prim) :
    runPrims (ps ++ qs) s = .error a := by
  rw [runPrims_append, h]

theorem runPrims_movRoutine {dest : Nat} (h : dest < 2048) (src : Reg) (s : State) :
    runPrims (movRoutine dest src) s = .ok (s.setWord (dest / 4) (s.reg src)) :=
  runPrims_cons (execPrim_mov h src s) []

theorem runPrims_subRoutine {src : Nat} (h : src < 2048) (dest : Reg) (s : State) :
    runPrims (subRoutine dest src) s = .ok (s.setReg dest (s.reg dest - s.word (src / 4))) :=
  runPrims_cons (execPrim_sub h dest s) []

/-- The whole effect of store-and-clear. -/
theorem runPrims_stcRoutine {addr : Nat} (h : addr < 2048) (reg : Reg) (s : State) :
    runPrims (stcRoutine addr reg) s = .ok ((s.setWord (addr / 4) (s.reg reg)).setReg reg 0#32) := by
  simp [stcRoutine, runPrims, execPrim_mov h, execPrim_sub h]

/-- The whole effect of load, for any content of the register. -/
theorem runPrims_loadRoutine {addr : Nat} (h : addr < 2048) (reg : Reg) (s : State) :
    runPrims (loadRoutine reg addr) s =
      .ok ((s.setWord (addr / 4) (s.word (addr / 4) - s.reg reg)).setReg reg (s.word (addr / 4) - s.reg reg)) := by
  simp [loadRoutine, runPrims, execPrim_mov h, execPrim_sub h, setReg_setWord]

theorem runPrims_movRoutine_error {dest : Nat} (h : 2048 ≤ dest) (src : Reg) (s : State) :
    runPrims (movRoutine dest src) s = .error dest :=
  runPrims_cons_error (execPrim_mov_error h src s) []

theorem runPrims_subRoutine_error {src : Nat} (h : 2048 ≤ src) (dest : Reg) (s : State) :
    runPrims (subRoutine dest src) s = .error src :=
  runPrims_cons_error (execPrim_sub_error h dest s) []

theorem runPrims_stcRoutine_error {addr : Nat} (h : 2048 ≤ addr) (reg : Reg) (s : State) :
    runPrims (stcRoutine addr reg) s = .error addr :=
  runPrims_cons_error (execPrim_mov_error h reg s) _

theorem runPrims_loadRoutine_error {addr : Nat} (h : 2048 ≤ addr) (reg : Reg) (s : State) :
    runPrims (loadRoutine reg addr) s = .error addr :=
  runPrims_cons_error (execPrim_sub_error h reg s) _

/-- A relation that holds from every state to itself and along every completed primitive holds along a routine. -/
theorem runPrims_induct {P : State → Prop} {ps : List Prim} {s t : State}
    (hstep : ∀ p ∈ ps, ∀ u v, execPrim p u = .ok v → P u → P v)
    (h : runPrims ps s = .ok t) (hs : P s) : P t := by
  induction ps generalizing s with
  | nil => simp at h; exact h ▸ hs
  | cons p ps ih =>
    cases hp : execPrim p s with
    | error a => rw [runPrims_cons_error hp] at h; cases h
    | ok u =>
      rw [runPrims_cons hp] at h
      exact ih (fun q hq => hstep q (by simp [hq])) h (hstep p (by simp) s u hp hs)

theorem runPrims_frame {ps : List Prim} {s t : State} (h : runPrims ps s = .ok t) :
    t.seq = s.seq ∧ t.requests = s.requests ∧ t.rsp = s.rsp ∧ t.freeCounter = s.freeCounter :=
  runPrims_induct
    (P := fun u => u.seq = s.seq ∧ u.requests = s.requests ∧ u.rsp = s.rsp ∧ u.freeCounter = s.freeCounter)
    (fun _ _ _ _ hp hu => by have := execPrim_frame hp; grind) h ⟨rfl, rfl, rfl, rfl⟩

/-- A routine changes a register only if it holds a `sub` into it. -/
theorem runPrims_reg_of_no_sub {ps : List Prim} {s t : State} (h : runPrims ps s = .ok t) (q : Reg)
    (hq : ∀ a, Prim.sub q a ∉ ps) : t.reg q = s.reg q :=
  runPrims_induct (P := fun u => u.reg q = s.reg q) (fun p hp u v hpv hu => by
    obtain ⟨d, r, rfl, -, rfl⟩ | ⟨r, a, rfl, -, rfl⟩ := execPrim_cases hpv
    · rw [setWord_reg]; exact hu
    · rw [setReg_reg_of_ne _ _ _ _ (fun hr => hq a (by rw [hr]; exact hp))]; exact hu) h rfl

/-- A routine changes a word only if it holds a `mov` to an address of it. -/
theorem runPrims_word_of_no_mov {ps : List Prim} {s t : State} (h : runPrims ps s = .ok t) (k : Nat)
    (hk : ∀ a r, Prim.mov a r ∈ ps → a / 4 ≠ k) : t.word k = s.word k :=
  runPrims_induct (P := fun u => u.word k = s.word k) (fun p hp u v hpv hu => by
    obtain ⟨d, r, rfl, -, rfl⟩ | ⟨r, a, rfl, -, rfl⟩ := execPrim_cases hpv
    · rw [setWord_word_of_ne _ _ _ _ (hk d r hp)]; exact hu
    · rw [setReg_word]; exact hu) h rfl

/-- Every address of a routine that completed is inside the memory. -/
theorem runPrims_mov_inBounds {ps : List Prim} {s t : State} (h : runPrims ps s = .ok t) {a : Nat} {r : Reg}
    (hm : Prim.mov a r ∈ ps) : a < 2048 := by
  induction ps generalizing s with
  | nil => cases hm
  | cons p ps ih =>
    cases hp : execPrim p s with
    | error b => rw [runPrims_cons_error hp] at h; cases h
    | ok u =>
      rw [runPrims_cons hp] at h
      rcases List.mem_cons.1 hm with rfl | hm
      · by_contra hc
        rw [execPrim_mov_error (by omega)] at hp
        cases hp
      · exact ih h hm

theorem runPrims_wf {ps : List Prim} {s t : State} (h : runPrims ps s = .ok t) (hs : Memory.wf s.mem) :
    Memory.wf t.mem :=
  runPrims_induct (P := fun u => Memory.wf u.mem) (fun _ _ _ _ hp hu => execPrim_wf hp hu) h hs

theorem runPrims_error_any {ps : List Prim} {s : State} {a : Nat} (h : runPrims ps s = .error a) (t : State) :
    runPrims ps t = .error a := by
  induction ps generalizing s t with
  | nil => cases h
  | cons p ps ih =>
    cases hp : execPrim p s with
    | error b =>
      rw [runPrims_cons_error hp] at h
      rw [runPrims_cons_error (execPrim_error_any hp t)]; exact h
    | ok u =>
      rw [runPrims_cons hp] at h
      cases hq : execPrim p t with
      | error b => rw [execPrim_error_any hq s] at hp; cases hp
      | ok v => rw [runPrims_cons hq]; exact ih h v

/-- A routine neither reads nor writes `seq` and the response. -/
theorem runPrims_outputs (ps : List Prim) (s : State) (q : Seq) (r : Option Response) :
    runPrims ps { s with seq := q, rsp := r } =
      match runPrims ps s with
      | .error a => .error a
      | .ok t => .ok { t with seq := q, rsp := r } := by
  induction ps generalizing s with
  | nil => rfl
  | cons p ps ih =>
    have h := execPrim_outputs p s q r
    cases hp : execPrim p s with
    | error a => rw [hp] at h; rw [runPrims_cons_error hp, runPrims_cons_error h]
    | ok t => rw [hp] at h; rw [runPrims_cons hp, runPrims_cons h, ih]

theorem runPrims_error {ps : List Prim} {s : State} {a : Nat} (h : runPrims ps s = .error a) : 2048 ≤ a := by
  induction ps generalizing s with
  | nil => cases h
  | cons p ps ih =>
    cases hp : execPrim p s with
    | error b => rw [runPrims_cons_error hp] at h; cases h; exact execPrim_error hp
    | ok u => rw [runPrims_cons hp] at h; exact ih h

end Sys2Proof.Machine
end

