-- ==== Sys2Proof/Laws/PerInstr.lean ====
section
/-! SUPPORT. The statement family `OpField`: what stands in the header of every encoded command (R61, R62, R65). -/

namespace Sys2Proof.Laws.OpField

open Sys2Proof

/-- The operation code of a command's row (R62). -/
def rowOp : Instr → Nat
  | .mov _ _ => 0x1
  | .sub _ _ => 0x2
  | .stc _ _ => 0x3
  | .load _ _ => 0x4
  | .swap _ _ => 0x5

/-- The encoded word of every command has its row's operation code and a reserved field of 0, whatever the operands. -/
def Statement (i : Instr) : Prop := opField (encode i) = rowOp i ∧ rsvField (encode i) = 0

theorem mov (dest : Nat) (src : Reg) : Statement (.mov dest src) :=
  ⟨opField_packWord (by decide) (bitOfReg_lt src), rsvField_packWord (by decide) (bitOfReg_lt src)⟩

theorem sub (dest : Reg) (src : Nat) : Statement (.sub dest src) :=
  ⟨opField_packWord (by decide) (bitOfReg_lt dest), rsvField_packWord (by decide) (bitOfReg_lt dest)⟩

theorem stc (addr : Nat) (reg : Reg) : Statement (.stc addr reg) :=
  ⟨opField_packWord (by decide) (bitOfReg_lt reg), rsvField_packWord (by decide) (bitOfReg_lt reg)⟩

theorem load (reg : Reg) (addr : Nat) : Statement (.load reg addr) :=
  ⟨opField_packWord (by decide) (bitOfReg_lt reg), rsvField_packWord (by decide) (bitOfReg_lt reg)⟩

theorem swap (a b : Nat) : Statement (.swap a b) :=
  ⟨opField_packWord (by decide) (by decide), rsvField_packWord (by decide) (by decide)⟩

end Sys2Proof.Laws.OpField
end

