-- ==== Sys2Proof/Laws/Sequencer.lean ====
section
/-! SUPPORT. What a command and a micro-step can do. -/

namespace Sys2Proof.Machine

/-- Every meaning is the sequencer running the command's row of the micro-ROM. -/
theorem exec_eq_runCommand (i : Instr) (s : State) : exec i s = runCommand i (rom i) s := by
  cases i <;> rfl

theorem rom_ne_nil (i : Instr) : 0 < (rom i).length := by
  cases i <;> simp [rom, movRoutine, subRoutine, stcRoutine, loadRoutine, swapRoutine]

theorem runCommand_ok {c : Instr} {ps : List Prim} {s u : State} (hs : s.seq = .idle)
    (h : runPrims ps s = .ok u) : runCommand c ps s = .next (u.complete none) := by
  simp [runCommand, hs, h]

theorem runCommand_error {c : Instr} {ps : List Prim} {s : State} {a : Nat} (hs : s.seq = .idle)
    (h : runPrims ps s = .error a) : runCommand c ps s = .fault (.outOfBounds (.command c) a) := by
  simp [runCommand, hs, h, raiseOutOfBounds]

theorem exec_ok {i : Instr} {s u : State} (hs : s.seq = .idle) (h : runPrims (rom i) s = .ok u) :
    exec i s = .next (u.complete none) := by
  rw [exec_eq_runCommand, runCommand_ok hs h]

theorem exec_error {i : Instr} {s : State} {a : Nat} (hs : s.seq = .idle) (h : runPrims (rom i) s = .error a) :
    exec i s = .fault (.outOfBounds (.command i) a) := by
  rw [exec_eq_runCommand, runCommand_error hs h]

/-- A command that answers a next state ran in an IDLE block, every primitive of it completed. -/
theorem runCommand_next {c : Instr} {ps : List Prim} {s t : State} (h : runCommand c ps s = .next t) :
    s.seq = .idle ∧ ∃ u, runPrims ps s = .ok u ∧ t = u.complete none := by
  unfold runCommand at h
  split at h
  · next hs =>
    split at h
    · cases h
    · next u hu => exact ⟨hs, u, hu, by simpa using h.symm⟩
  · cases h
  · cases h

theorem exec_next {i : Instr} {s t : State} (h : exec i s = .next t) :
    s.seq = .idle ∧ ∃ u, runPrims (rom i) s = .ok u ∧ t = u.complete none :=
  runCommand_next (exec_eq_runCommand i s ▸ h)

/-- What every command leaves as it was, and what it answers. -/
theorem exec_frame {i : Instr} {s t : State} (h : exec i s = .next t) :
    t.seq = .idle ∧ t.requests = s.requests ∧ t.freeCounter = s.freeCounter ∧
      t.rsp = some { status := .ok, rdata := none } := by
  obtain ⟨-, u, hu, rfl⟩ := exec_next h
  obtain ⟨-, hr, -, hf⟩ := runPrims_frame hu
  exact ⟨rfl, hr, hf, rfl⟩

theorem exec_keeps_wf {i : Instr} {s t : State} (h : exec i s = .next t) (hs : Memory.wf s.mem) : Memory.wf t.mem := by
  obtain ⟨-, u, hu, rfl⟩ := exec_next h
  rw [complete_mem]
  exact runPrims_wf hu hs

/-- Everything a micro-step that answers a next state can have done. -/
theorem microStep_next {c : Instr} {upc : Nat} {s t : State} (h : microStep c upc s = .next t) :
    ∃ p u, (rom c)[upc]? = some p ∧ execPrim p s = .ok u ∧
      ((upc + 1 = (rom c).length ∧ t = u.complete none) ∨
       (upc + 1 ≠ (rom c).length ∧ t = u.running c (upc + 1))) := by
  unfold microStep at h
  split at h
  · cases h
  · next p hp =>
    split at h
    · cases h
    · next u hu =>
      split at h
      · next hl => exact ⟨p, u, hp, hu, .inl ⟨hl, by simpa using h.symm⟩⟩
      · next hl => exact ⟨p, u, hp, hu, .inr ⟨hl, by simpa using h.symm⟩⟩

end Sys2Proof.Machine
end

