-- ==== Sys2Proof/Laws/Step.lean ====
section
/-! SUPPORT. Everything a step can do, in one inversion lemma per shape of `seq` and one for the whole step. -/

namespace Sys2Proof.Machine

/-- The three shapes of `seq` (R25). -/
theorem seq_cases (s : State) : s.seq = .idle ∨ (∃ c upc, s.seq = .run c upc) ∨ s.seq = .halted := by
  cases s.seq with
  | idle => exact .inl rfl
  | run c upc => exact .inr (.inl ⟨c, upc, rfl⟩)
  | halted => exact .inr (.inr rfl)

theorem step_idle {s : State} (h : s.seq = .idle) : step s = stepIdle s := by simp [step, h]

theorem step_run {s : State} {c : Instr} {upc : Nat} (h : s.seq = .run c upc) : step s = stepRun c upc s := by
  simp [step, h]

theorem step_halted {s : State} (h : s.seq = .halted) : step s = stepHalted s := by simp [step, h]

theorem hostRead_next {a : Nat} {s t : State} (h : hostRead a s = .next t) :
    s.seq = .idle ∧ a < 2048 ∧ t = s.complete (some (s.word (a / 4))) := by
  unfold hostRead at h
  split at h
  · next hs =>
    by_cases ha : a < 2048
    · rw [memRead_ok ha] at h
      exact ⟨hs, ha, by simpa using h.symm⟩
    · rw [memRead_error (by omega)] at h
      cases h
  · cases h
  · cases h

theorem hostWrite_next {a : Nat} {v : Word} {s t : State} (h : hostWrite a v s = .next t) :
    s.seq = .idle ∧ a < 2048 ∧ t = (s.setWord (a / 4) v).complete none := by
  unfold hostWrite at h
  split at h
  · next hs =>
    by_cases ha : a < 2048
    · rw [memWrite_ok ha] at h
      exact ⟨hs, ha, by simpa using h.symm⟩
    · rw [memWrite_error (by omega)] at h
      cases h
  · cases h
  · cases h

/-- What a step that answers a next state has done. -/
theorem step_cases {s t : State} (h : step s = .next t) :
    (s.seq = .idle ∧ s.requests = [] ∧ t = s) ∨
    (∃ rest, s.requests = .reset :: rest ∧ t = resetBlock (s.setRequests rest)) ∨
    (∃ w rest i, s.seq = .idle ∧ s.requests = .command w :: rest ∧ decode w = .ok i ∧
      exec i (s.setRequests rest) = .next t) ∨
    (∃ w rest i, s.seq = .idle ∧ s.requests = .stepped w :: rest ∧ decode w = .ok i ∧
      t = (s.setRequests rest).running i 0) ∨
    (∃ a rest, s.seq = .idle ∧ s.requests = .read a :: rest ∧ a < 2048 ∧
      t = (s.setRequests rest).complete (some (s.word (a / 4)))) ∨
    (∃ a v rest, s.seq = .idle ∧ s.requests = .write a v :: rest ∧ a < 2048 ∧
      t = ((s.setRequests rest).setWord (a / 4) v).complete none) ∨
    (∃ c upc, s.seq = .run c upc ∧ (∀ rest, s.requests ≠ .reset :: rest) ∧ microStep c upc s = .next t) := by
  obtain hs | ⟨c, upc, hs⟩ | hs := seq_cases s
  · rw [step_idle hs] at h
    unfold stepIdle at h
    split at h
    · next hr => left; exact ⟨hs, hr, by simpa using h.symm⟩
    · next r rest hr =>
      right
      cases r with
      | reset => left; exact ⟨rest, hr, by simpa [accept] using h.symm⟩
      | command w =>
        right; left
        simp only [accept, acceptCommand] at h
        split at h
        · cases h
        · next i hi => exact ⟨w, rest, i, hs, hr, hi, h⟩
      | stepped w =>
        right; right; left
        simp only [accept, acceptStepped] at h
        split at h
        · cases h
        · next i hi => exact ⟨w, rest, i, hs, hr, hi, by simpa using h.symm⟩
      | read a =>
        obtain ⟨-, ha, ht⟩ := hostRead_next (by simpa [accept] using h)
        exact .inr (.inr (.inr (.inl ⟨a, rest, hs, hr, ha, ht⟩)))
      | write a v =>
        obtain ⟨-, ha, ht⟩ := hostWrite_next (by simpa [accept] using h)
        exact .inr (.inr (.inr (.inr (.inl ⟨a, v, rest, hs, hr, ha, ht⟩))))
  · rw [step_run hs] at h
    unfold stepRun at h
    right
    split at h
    · next rest hr => left; exact ⟨rest, hr, by simpa using h.symm⟩
    · next hr => exact .inr (.inr (.inr (.inr (.inr ⟨c, upc, hs, hr, h⟩))))
  · rw [step_halted hs] at h
    unfold stepHalted at h
    split at h
    · cases h
    · next rest hr => right; left; exact ⟨rest, hr, by simpa using h.symm⟩
    · cases h

section Run
variable {s t : State} (n : Nat)

theorem run_zero : Host.Core.run Sys2Proof.core 0 s = .next s := rfl

theorem run_next (h : step s = .next t) :
    Host.Core.run Sys2Proof.core (n + 1) s = Host.Core.run Sys2Proof.core n t := by
  have hc : Sys2Proof.core.step s = .next t := h
  simp only [Host.Core.run, hc]

theorem run_fault {f : Fault} (h : step s = .fault f) :
    Host.Core.run Sys2Proof.core (n + 1) s = .fault f := by
  have hc : Sys2Proof.core.step s = .fault f := h
  simp only [Host.Core.run, hc]

theorem run_refused {r : Refusal} (h : step s = .refused r) :
    Host.Core.run Sys2Proof.core (n + 1) s = .refused r := by
  have hc : Sys2Proof.core.step s = .refused r := h
  simp only [Host.Core.run, hc]

end Run

end Sys2Proof.Machine
end

