-- ==== Sys2Proof/Tests/Slice0.lean ====
section
/-! SUPPORT. Tests against the vectors of `95_test_vectors.md`, ill-formed terms the checks refuse, and for every statement
with hypotheses a state and operands that meet them together. -/

namespace Sys2Proof.Tests

open Sys2Proof Sys2Proof.Machine

/-- The block IDLE, with these registers and words. -/
def block (x1 x2 : Word) (m : Memory) : State := { State.reset with x1 := x1, x2 := x2, mem := m }

/-- What the vectors show of a state: both registers and the listed words. -/
def view (t : State) (ks : List Nat) : Word × Word × List Word := (t.x1, t.x2, ks.map t.word)

/-- The view of the next state, none when the outcome is not one. -/
def after (ks : List Nat) : Host.Outcome State Fault Refusal → Option (Word × Word × List Word)
  | .next t => some (view t ks)
  | .fault _ => none
  | .refused _ => none

/-- The fault of an outcome. -/
def faultOf : Host.Outcome State Fault Refusal → Option Fault
  | .next _ => none
  | .fault f => some f
  | .refused _ => none

/-! ### Well-formedness: an address that does not fit its 32-bit field is refused -/

theorem test_wf_mov : (Instr.mov (2 ^ 32) .reg1).wf = false ∧ (Instr.mov (2 ^ 32 - 1) .reg1).wf = true := by decide
theorem test_wf_sub : (Instr.sub .reg1 (2 ^ 32)).wf = false := by decide
theorem test_wf_stc : (Instr.stc (2 ^ 32) .reg2).wf = false := by decide
theorem test_wf_load : (Instr.load .reg2 (2 ^ 32)).wf = false := by decide
theorem test_wf_swap : (Instr.swap (2 ^ 32) 4).wf = false ∧ (Instr.swap 4 (2 ^ 32)).wf = false := by decide
theorem test_wf_requests : (Request.read (2 ^ 32)).wf = false ∧ (Request.write (2 ^ 32) 0#32).wf = false := by decide

/-! ### Decoder: words written out from R61 to R65 (vectors E1 to E12) -/

theorem test_decode_mov : decode 0x100000000000000004#72 = .ok (.mov 4 .reg1) := by decide
theorem test_decode_mov_reg2 : decode 0x11000000000000000C#72 = .ok (.mov 12 .reg2) := by decide
theorem test_decode_sub : decode 0x2100000000FFFFFFFF#72 = .ok (.sub .reg2 4294967295) := by decide
theorem test_decode_stc : decode 0x310000000000000004#72 = .ok (.stc 4 .reg2) := by decide
theorem test_decode_load : decode 0x400000000000000014#72 = .ok (.load .reg1 20) := by decide
theorem test_decode_swap : decode 0x50000007FC0000000C#72 = .ok (.swap 12 2044) := by decide
theorem test_decode_out_of_bounds_address : decode 0x100000000000000800#72 = .ok (.mov 2048 .reg1) := by decide
theorem test_decode_illegal_op : decode 0x600000000000000004#72 = .error (.unassignedOp 6) ∧
    decode 0x000000000000000000#72 = .error (.unassignedOp 0) := by decide
theorem test_decode_illegal_fields : decode 0x120000000000000004#72 = .error .reservedField ∧
    decode 0x100000000800000004#72 = .error .secondAddress ∧
    decode 0x510000000800000004#72 = .error .registerInSwap ∧
    decode 0xFFFFFFFFFFFFFFFFFF#72 = .error .reservedField := by decide
theorem test_encode : encode (.mov 4 .reg1) = 0x100000000000000004#72 ∧ encode (.sub .reg2 8) = 0x210000000000000008#72 ∧
    encode (.stc 4 .reg2) = 0x310000000000000004#72 ∧ encode (.load .reg2 20) = 0x410000000000000014#72 ∧
    encode (.swap 4 8) = 0x500000000800000004#72 := by decide
theorem test_table_word : decodeTableWord 72 0x500000000000000000 = some (.swap 0 0) := by decide

/-! ### Commands -/

/-- Vector M3: the misaligned address 2047 writes the last word. -/
theorem test_mov_last_word :
    after [511] (exec (.mov 2047 .reg2) (block 1#32 5#32 [(511, 9#32)])) = some (1#32, 5#32, [5#32]) := by decide
/-- Vector M4. -/
theorem test_mov_out_of_bounds :
    faultOf (exec (.mov 2048 .reg1) State.reset) = some (.outOfBounds (.command (.mov 2048 .reg1)) 2048) := by decide
/-- Vector B6: the true difference wraps, no fault. -/
theorem test_sub_wraps :
    after [1] (exec (.sub .reg1 4) (block 0x80000000#32 3#32 [(1, 1#32)])) = some (0x7FFFFFFF#32, 3#32, [1#32]) := by decide
/-- Vector B18: address 6 reads `M[1]`. -/
theorem test_sub_misaligned :
    after [1] (exec (.sub .reg1 6) (block 10#32 0#32 [(1, 3#32)])) = some (7#32, 0#32, [3#32]) := by decide
/-- Vector T1. -/
theorem test_stc_reset :
    after [0] (exec (.stc 0 .reg1) State.reset) = some (0#32, 0xFFFFFFFF#32, [0xFFFFFFFF#32]) := by decide
/-- Vector T2. -/
theorem test_stc_overwrites :
    after [1] (exec (.stc 4 .reg2) (block 6#32 1999#32 [(1, 77#32)])) = some (6#32, 0#32, [1999#32]) := by decide
/-- Vector L6: the most negative value. -/
theorem test_load_most_negative :
    after [5] (exec (.load .reg2 20) (block 1#32 0#32 [(5, 0x80000000#32)])) =
      some (1#32, 0x80000000#32, [0x80000000#32]) := by decide
/-- Vector L8: a register that still holds −1. -/
theorem test_load_not_zeroed :
    after [1] (exec (.load .reg1 4) (block 0xFFFFFFFF#32 2#32 [(1, 0xFFFFFFD6#32)])) =
      some (0xFFFFFFD7#32, 2#32, [0xFFFFFFD7#32]) := by decide
/-- Vector S1, the source's own example: `M[1] = -42`, `M[2] = 1999`. -/
theorem test_swap_source_example :
    after [0, 1, 2] (exec (.swap 4 8) (block 0xFFFFFFFF#32 0xFFFFFFFF#32 [(1, 0xFFFFFFD6#32), (2, 1999#32)])) =
      some (0#32, 0#32, [0xFFFFFFFF#32, 1999#32, 0xFFFFFFD6#32]) := by decide
/-- Vector W9: a block configured with `TEMP_ADDR = 16`. -/
theorem test_swap_other_scratch :
    after [0, 1, 2, 4] (execSwapWith 16 4 8 (block 7#32 9#32 [(1, 11#32), (2, 22#32), (4, 100#32)])) =
      some (0#32, 0#32, [0#32, 22#32, 11#32, 9#32]) := by decide

/-! ### The host -/

/-- Vector H3: a read at the misaligned address 5. -/
theorem test_host_read :
    (match step { block 0#32 0#32 [(1, 0xFFFFFFD6#32)] with requests := [.read 5] } with
      | .next t => t.rsp
      | _ => none) = some { status := .ok, rdata := some 0xFFFFFFD6#32 } := by decide
/-- Vector H5. -/
theorem test_host_write_out_of_bounds :
    faultOf (step { State.reset with requests := [.write 2048 1#32] }) = some (.outOfBounds .hostWrite 2048) := by decide
/-- Vector X1, from HALTED. -/
theorem test_reset_from_halted :
    after [1] (step { block 1#32 2#32 [(1, 3#32)] with seq := .halted, requests := [.reset] }) =
      some (0xFFFFFFFF#32, 0xFFFFFFFF#32, [0#32]) := by decide
/-- The very next step after reset runs the presented word. -/
theorem test_with_fetch_word :
    after [1] (step (State.reset.withFetchWord 72 0x100000000000000004)) =
      some (0xFFFFFFFF#32, 0xFFFFFFFF#32, [0xFFFFFFFF#32]) := by decide

/-! ### Witnesses: the hypotheses of every statement can be met -/

/-- A block in the middle of `stc 4, Reg1`. -/
def running (upc : Nat) : State := { State.reset with seq := .run (.stc 4 .reg1) upc }

/-- A HALTED block. -/
def stopped : State := { State.reset with seq := .halted }

/-- After a `sub` into the other register: not the reset state, and `Reg1` still unwritten. -/
theorem witness_UnwrittenRegisterReadsMinusOne : ∃ s, NotWrittenSinceReset .reg1 s ∧ s.seq = .idle ∧ (2047 : Nat) < 2048 ∧
    s.x2 ≠ State.reset.x2 :=
  ⟨_, .step (.step (.start [.write 2047 5#32, .command 0x2100000000000007FF#72]) (by simp [State.subNext, State.runStart,
    State.present, State.setRequests, State.reset]) rfl) (by
    rintro (⟨w, rest, i, a, -, hr, hd, hi⟩ | ⟨c, upc, a, hs, -⟩)
    · obtain ⟨⟨⟩, -⟩ := List.cons.inj hr
      obtain rfl : Instr.sub .reg2 2047 = i := by injection hd
      simp [rom, subRoutine] at hi
    · cases hs) rfl, rfl, by decide, by decide⟩
/-- After a reset taken in the middle of a command. -/
theorem witness_UnwrittenRegisterReadsMinusOne_reset : ∃ s, NotWrittenSinceReset .reg2 s ∧ s.seq = .idle :=
  ⟨_, .reset (s := (running 1).present [.reset]) (by decide) rfl, rfl⟩
/-- In the middle of a running command, after its first micro-step. -/
theorem witness_UnwrittenRegisterReadsMinusOne_running : ∃ s, NotWrittenSinceReset .reg1 s ∧ s.seq = .run (.stc 4 .reg1) 1 :=
  ⟨_, .step (.step (.start [.stepped 0x300000000000000004#72]) (by simp [State.subNext, State.runStart, State.present,
    State.setRequests, State.reset]) rfl) (by
    rintro (⟨w, rest, i, a, hs, -⟩ | ⟨c, upc, a, hs, hp⟩)
    · cases hs
    · obtain ⟨rfl, rfl⟩ : Instr.stc 4 .reg1 = c ∧ 0 = upc := by injection hs with h h'; exact ⟨h, h'⟩
      simp [rom, stcRoutine] at hp) rfl, rfl⟩

theorem witness_ResetFromEveryState :
    (State.reset.present [.reset]).requests = [.reset] ∧ (State.reset.present [.reset]).seq = .idle ∧
    ((running 1).present [.reset]).requests = [.reset] ∧ ((running 1).present [.reset]).seq = .run (.stc 4 .reg1) 1 ∧
    (stopped.present [.reset]).requests = [.reset] ∧ (stopped.present [.reset]).seq = .halted := by decide

theorem witness_TranslatorDividesAndChecks :
    xlate 2047 = .ok 511 ∧ (2047 : Nat) < 2048 ∧ xlate 2048 = .error 2048 ∧ (2048 : Nat) ≤ 2048 := by decide

theorem witness_MisalignedAddressNamesItsWord :
    memRead 2047 State.reset = memRead 2044 State.reset ∧ xlate 4 = xlate 7 ∧ xlate 7 ≠ xlate 8 := by decide

theorem witness_ReadReturnsLastWrite :
    memWrite 2047 5#32 State.reset = .ok (State.reset.setWord 511 5#32) ∧ 2043 / 4 ≠ 2047 / 4 := by decide

theorem witness_WrappingSubtractionLaws_in_range :
    -2 ^ 31 ≤ (0xFFFFFFFF#32 : Word).toInt - (0x7FFFFFFF#32 : Word).toInt ∧
      (0xFFFFFFFF#32 : Word).toInt - (0x7FFFFFFF#32 : Word).toInt ≤ 2 ^ 31 - 1 := by decide
theorem witness_WrappingSubtractionLaws_above :
    2 ^ 31 ≤ (0x7FFFFFFF#32 : Word).toInt - (0xFFFFFFFF#32 : Word).toInt := by decide
theorem witness_WrappingSubtractionLaws_below :
    (0x80000000#32 : Word).toInt - (1#32 : Word).toInt < -2 ^ 31 := by decide

theorem witness_MovStoresRegister_next : State.reset.seq = .idle ∧ (2047 : Nat) < 2048 ∧
    (after [] (exec (.mov 2047 .reg1) State.reset)).isSome := by decide
theorem witness_MovStoresRegister_fault : State.reset.seq = .idle ∧ (2048 : Nat) ≤ 2048 := by decide
theorem witness_SubSubtractsWord_next : State.reset.seq = .idle ∧ (2047 : Nat) < 2048 ∧
    (after [] (exec (.sub .reg2 2047) State.reset)).isSome := by decide
theorem witness_SubSubtractsWord_fault : State.reset.seq = .idle ∧
    faultOf (exec (.sub .reg2 2048) State.reset) = some (.outOfBounds (.command (.sub .reg2 2048)) 2048) := by decide
theorem witness_StcStoresAndClears_next : State.reset.seq = .idle ∧
    (after [] (exec (.stc 2047 .reg2) State.reset)).isSome := by decide
theorem witness_StcStoresAndClears_fault : State.reset.seq = .idle ∧
    faultOf (exec (.stc 2048 .reg1) State.reset) = some (.outOfBounds (.command (.stc 2048 .reg1)) 2048) := by decide
theorem witness_LoadReadsWordIntoZeroRegister_next :
    (block 0#32 1#32 []).seq = .idle ∧ (2047 : Nat) < 2048 ∧ (block 0#32 1#32 []).reg .reg1 = 0#32 := by decide
theorem witness_LoadReadsWordIntoZeroRegister_fault : State.reset.seq = .idle ∧
    faultOf (exec (.load .reg2 2048) State.reset) = some (.outOfBounds (.command (.load .reg2 2048)) 2048) := by decide
theorem witness_LoadWithoutPreconditionSubtracts :
    (block 5#32 1#32 [(1, 12#32)]).seq = .idle ∧ (4 : Nat) < 2048 ∧
    after [1] (exec (.load .reg1 4) (block 5#32 1#32 [(1, 12#32)])) = some (7#32, 1#32, [7#32]) := by decide
theorem witness_LoadAfterResetAddsOne :
    State.reset.seq = .idle ∧ (2047 : Nat) < 2048 ∧ State.reset.reg .reg2 = 0xFFFFFFFF#32 := by decide

theorem witness_SwapExchangesWords : State.reset.seq = .idle ∧ (4 : Nat) < 2048 ∧ (2047 : Nat) < 2048 ∧
    4 / 4 ≠ Config.tempAddr / 4 ∧ 2047 / 4 ≠ Config.tempAddr / 4 := by decide
theorem witness_SwapWithAnyScratchAddress_next : State.reset.seq = .idle ∧ (2047 : Nat) < 2048 ∧ (0 : Nat) < 2048 ∧
    (2043 : Nat) < 2048 ∧ 0 / 4 ≠ 2047 / 4 ∧ 2043 / 4 ≠ 2047 / 4 := by decide
theorem witness_SwapWithAnyScratchAddress_scratch_fault : State.reset.seq = .idle ∧
    faultOf (execSwapWith 2048 4000 5000 State.reset) = some (.outOfBounds (.command (.swap 4000 5000)) 2048) := by decide
/-- Vector W11. -/
theorem witness_SwapWithAnyScratchAddress_first_fault : State.reset.seq = .idle ∧
    faultOf (execSwapWith 0 2048 4 State.reset) = some (.outOfBounds (.command (.swap 2048 4)) 2048) := by decide
/-- Vector W10. -/
theorem witness_SwapWithAnyScratchAddress_second_fault : State.reset.seq = .idle ∧
    faultOf (execSwapWith 0 4 2048 State.reset) = some (.outOfBounds (.command (.swap 4 2048)) 2048) := by decide
/-- Vector W4. -/
theorem witness_SwapWithAliasedOperands_operands : 4 / 4 = 6 / 4 ∧ 4 / 4 ≠ 0 / 4 ∧
    after [0, 1] (execSwapWith 0 4 6 (block 7#32 9#32 [(0, 100#32), (1, 11#32)])) =
      some (0#32, 0#32, [9#32, 11#32]) := by decide
/-- Vector W6. -/
theorem witness_SwapWithAliasedOperands_first : 3 / 4 = 0 / 4 ∧ 8 / 4 ≠ 0 / 4 ∧
    after [0, 2] (execSwapWith 0 3 8 (block 7#32 9#32 [(0, 100#32), (2, 22#32)])) =
      some (0#32, 0#32, [22#32, 9#32]) := by decide
/-- Vector W7. -/
theorem witness_SwapWithAliasedOperands_second : 0 / 4 = 0 / 4 ∧ 4 / 4 ≠ 0 / 4 ∧
    after [0, 1] (execSwapWith 0 4 0 (block 7#32 9#32 [(0, 100#32), (1, 11#32)])) =
      some (0#32, 0#32, [11#32, 9#32]) := by decide
/-- Vector W8. -/
theorem witness_SwapWithAliasedOperands_all : 0 / 4 = 3 / 4 ∧
    after [0] (execSwapWith 0 0 3 (block 7#32 9#32 [(0, 100#32)])) = some (0#32, 0#32, [9#32]) := by decide
theorem witness_SwapTwiceRestoresThePair_pair : State.reset.seq = .idle ∧ (2044 : Nat) < 2048 ∧ (4 : Nat) < 2048 ∧
    2044 / 4 ≠ Config.tempAddr / 4 ∧ 4 / 4 ≠ Config.tempAddr / 4 := by decide
theorem witness_SwapTwiceRestoresThePair_any : ∃ t, exec (.swap 0 3) State.reset = .next t := ⟨_, rfl⟩

theorem witness_MovFrame : (∃ t, exec (.mov 2047 .reg1) State.reset = .next t) ∧ xlate 2047 = .ok 511 ∧
    xlate 2043 ≠ .ok 511 := ⟨⟨_, rfl⟩, by decide, by decide⟩
theorem witness_SubFrame : (∃ t, exec (.sub .reg1 4) State.reset = .next t) ∧ Reg.reg2 ≠ Reg.reg1 :=
  ⟨⟨_, rfl⟩, by decide⟩
theorem witness_StcAndLoadFrame : (∃ t, exec (.stc 2047 .reg1) State.reset = .next t) ∧
    (∃ t, exec (.load .reg1 2047) State.reset = .next t) ∧ xlate 2047 = .ok 511 ∧ xlate 2043 ≠ .ok 511 :=
  ⟨⟨_, rfl⟩, ⟨_, rfl⟩, by decide, by decide⟩
theorem witness_SwapFrame : (∃ t, exec (.swap 4 8) State.reset = .next t) ∧ xlate Config.tempAddr = .ok 0 ∧
    xlate 4 = .ok 1 ∧ xlate 8 = .ok 2 ∧ xlate 12 ≠ .ok 0 ∧ xlate 12 ≠ .ok 1 ∧ xlate 12 ≠ .ok 2 :=
  ⟨⟨_, rfl⟩, by decide, by decide, by decide, by decide, by decide, by decide⟩
theorem witness_CompletedCommandAnswersOk : ∃ t, exec (.load .reg2 0) State.reset = .next t := ⟨_, rfl⟩
theorem witness_CommandCompletesExactlyInBounds_in : State.reset.seq = .idle ∧ CommandInBounds (.swap 2047 0) :=
  ⟨rfl, by simp [CommandInBounds, Config.tempAddr]⟩
theorem witness_CommandCompletesExactlyInBounds_out : State.reset.seq = .idle ∧ ¬ CommandInBounds (.sub .reg1 2048) :=
  ⟨rfl, by simp [CommandInBounds]⟩
theorem witness_FaultDependsOnOperandsOnly : State.reset.seq = .idle ∧ (block 1#32 2#32 []).seq = .idle ∧
    exec (.swap 4 2048) State.reset = .fault (.outOfBounds (.command (.swap 4 2048)) 2048) := ⟨rfl, rfl, rfl⟩
theorem witness_CommandNeedsIdleBlock : (running 0).seq ≠ .idle ∧ stopped.seq ≠ .idle := by decide

theorem witness_SequencerMicroStep_next : (running 0).seq = .run (.stc 4 .reg1) 0 ∧
    0 < (rom (.stc 4 .reg1)).length ∧ ¬ (running 0).resetNext ∧ 0 + 1 ≠ (rom (.stc 4 .reg1)).length ∧
    execPrim (.mov 4 .reg1) (running 0) = .ok ((running 0).setWord 1 0xFFFFFFFF#32) := by decide
theorem witness_SequencerMicroStep_last : (running 1).seq = .run (.stc 4 .reg1) 1 ∧
    1 < (rom (.stc 4 .reg1)).length ∧ ¬ (running 1).resetNext ∧ 1 + 1 = (rom (.stc 4 .reg1)).length ∧
    execPrim (.sub .reg1 4) (running 1) = .ok (running 1) := by decide
theorem witness_SequencerMicroStep_fault :
    ({ State.reset with seq := .run (.mov 2048 .reg1) 0 } : State).seq = .run (.mov 2048 .reg1) 0 ∧
    0 < (rom (.mov 2048 .reg1)).length ∧
    execPrim (.mov 2048 .reg1) { State.reset with seq := .run (.mov 2048 .reg1) 0 } = .error 2048 := by decide
theorem witness_CompositeEqualsItsPrimitives : State.reset.seq = .idle := rfl
theorem witness_MicroStepsRefineTheCommand :
    (State.reset.present [.stepped 0x310000000000000004#72]).seq = .idle ∧
    (State.reset.present [.stepped 0x310000000000000004#72]).requests = [.stepped 0x310000000000000004#72] ∧
    decode 0x310000000000000004#72 = .ok (.stc 4 .reg2) ∧ ¬ (State.reset.setRequests []).resetNext := by decide
theorem witness_RunningCommandIsExclusive : (running 0).seq = .run (.stc 4 .reg1) 0 ∧ ¬ (running 0).resetNext ∧
    ∃ t, step (running 0) = .next t := ⟨rfl, by decide, _, rfl⟩

theorem witness_CommandEncodingRoundTrip_encode : (Instr.swap (2 ^ 32 - 1) 0).wf = true := by decide
theorem witness_CommandEncodingRoundTrip_decode :
    decode 0x5FFFFFFFFFFFFFFFFF#72 = .error .reservedField ∧
    decode 0x50FFFFFFFFFFFFFFFF#72 = .ok (.swap 4294967295 4294967295) := by decide

theorem witness_StepRunsDecodedCommand_presented :
    (State.reset.present [.command 0x410000000000000014#72]).seq = .idle ∧
    (State.reset.present [.command 0x410000000000000014#72]).requests = [.command 0x410000000000000014#72] ∧
    decode 0x410000000000000014#72 = .ok (.load .reg2 20) := by decide
theorem witness_StepRunsDecodedCommand_table : State.reset.seq = .idle ∧
    decodeTableWord 72 0x200000000000000000 = some (.sub .reg1 0) := by decide
theorem witness_IllegalCommandIsRefused :
    (State.reset.present [.command 0x600000000000000004#72]).seq = .idle ∧
    (State.reset.present [.stepped 0x600000000000000004#72]).seq = .idle ∧
    (State.reset.present [.command 0x600000000000000004#72]).requests = [.command 0x600000000000000004#72] ∧
    (State.reset.present [.stepped 0x600000000000000004#72]).requests = [.stepped 0x600000000000000004#72] ∧
    decode 0x600000000000000004#72 = .error (.unassignedOp 6) := by decide
theorem witness_IllegalCommandLeavesTheBlock :
    (State.reset.present [.command 0x510000000800000004#72]).seq = .idle ∧
    (State.reset.present [.command 0x510000000800000004#72]).requests = [.command 0x510000000800000004#72] ∧
    (State.reset.present [.stepped 0x510000000800000004#72]).seq = .idle ∧
    (State.reset.present [.stepped 0x510000000800000004#72]).requests = [.stepped 0x510000000800000004#72] ∧
    decode 0x510000000800000004#72 = .error .registerInSwap := by decide
theorem witness_NothingHappensBetweenTransactions : State.reset.seq = .idle ∧ State.reset.requests = [] := by decide
theorem witness_HostReadAnswersTheWord_next : (State.reset.present [.read 2047]).seq = .idle ∧
    (State.reset.present [.read 2047]).requests = [.read 2047] ∧ (2047 : Nat) < 2048 := by decide
theorem witness_HostReadAnswersTheWord_fault : (State.reset.present [.read 2048]).seq = .idle ∧
    (State.reset.present [.read 2048]).requests = [.read 2048] ∧ (2048 : Nat) ≤ 2048 := by decide
theorem witness_HostWriteReplacesTheWord_next : (State.reset.present [.write 2047 1#32]).seq = .idle ∧
    (State.reset.present [.write 2047 1#32]).requests = [.write 2047 1#32] ∧ (2047 : Nat) < 2048 := by decide
theorem witness_HostWriteReplacesTheWord_fault : (State.reset.present [.write 2048 1#32]).seq = .idle ∧
    (State.reset.present [.write 2048 1#32]).requests = [.write 2048 1#32] ∧ (2048 : Nat) ≤ 2048 := by decide

theorem witness_OnlySubAndResetWriteRegisters_reset :
    ∃ t, step ((block 1#32 2#32 []).present [.reset]) = .next t ∧
      t.reg .reg1 ≠ ((block 1#32 2#32 []).present [.reset]).reg .reg1 := ⟨_, rfl, by decide⟩
theorem witness_OnlySubAndResetWriteRegisters_command :
    ∃ t, step (State.reset.present [.command 0x300000000000000000#72]) = .next t ∧
      t.reg .reg1 ≠ (State.reset.present [.command 0x300000000000000000#72]).reg .reg1 := ⟨_, rfl, by decide⟩
theorem witness_OnlySubAndResetWriteRegisters_micro_step :
    ∃ t, step ((running 1).setWord 1 5#32) = .next t ∧ t.reg .reg1 ≠ ((running 1).setWord 1 5#32).reg .reg1 :=
  ⟨_, rfl, by decide⟩
theorem witness_OnlyMovHostAndResetWriteMemory_reset :
    ∃ t, step ((block 1#32 2#32 [(511, 7#32)]).present [.reset]) = .next t ∧
      t.word 511 ≠ ((block 1#32 2#32 [(511, 7#32)]).present [.reset]).word 511 := ⟨_, rfl, by decide⟩
theorem witness_OnlyMovHostAndResetWriteMemory_command :
    ∃ t, step (State.reset.present [.command 0x1000000000000007FF#72]) = .next t ∧
      t.word 511 ≠ (State.reset.present [.command 0x1000000000000007FF#72]).word 511 := ⟨_, rfl, by decide⟩
theorem witness_OnlyMovHostAndResetWriteMemory_micro_step :
    ∃ t, step (running 0) = .next t ∧ t.word 1 ≠ (running 0).word 1 := ⟨_, rfl, by decide⟩
theorem witness_OnlyMovHostAndResetWriteMemory_host :
    ∃ t, step (State.reset.present [.write 2047 1#32]) = .next t ∧
      t.word 511 ≠ (State.reset.present [.write 2047 1#32]).word 511 := ⟨_, rfl, by decide⟩
theorem witness_RegistersAreSymmetric : (∀ a b, Instr.load .reg1 4 ≠ .swap a b) ∧
    ∃ t, exec (.load .reg1 4) State.reset = .next t := ⟨fun _ _ h => (by cases h), _, rfl⟩
theorem witness_StoreCannotChangeWhatRunsNext :
    (∃ t, exec (.mov 4 .reg1) (State.reset.present [.command 0x200000000000000004#72]) = .next t) ∧
    (State.reset.present [.command 0x200000000000000004#72]).requests = [.command 0x200000000000000004#72] ∧
    decode 0x200000000000000004#72 = .ok (.sub .reg1 4) := ⟨⟨_, rfl⟩, by decide, by decide⟩
theorem witness_HaltedBlockOnlyResets : (stopped.present [.reset]).seq = .halted ∧
    ∃ t, step (stopped.present [.reset]) = .next t := ⟨rfl, _, rfl⟩
theorem witness_FaultHaltsTheBlock_command : step (State.reset.present [.command 0x210000000000000800#72]) =
    .fault (.outOfBounds (.command (.sub .reg2 2048)) 2048) := rfl
theorem witness_FaultHaltsTheBlock_host : step (State.reset.present [.read 2048]) =
    .fault (.outOfBounds .hostRead 2048) := rfl
theorem witness_OutputsFollowTheSequencer : State.reset.seq = .idle ∧ (running 1).seq ≠ .idle ∧ stopped.seq ≠ .idle := by
  decide

theorem witness_StepKeepsTheInvariant_command : (block 1#32 2#32 [(1, 3#32), (511, 4#32)]).Inv ∧
    ∃ t, step ((block 1#32 2#32 [(1, 3#32), (511, 4#32)]).present [.command 0x310000000000000004#72]) = .next t :=
  ⟨⟨by decide, trivial⟩, _, rfl⟩
theorem witness_StepKeepsTheInvariant_micro_step : (running 0).Inv ∧ ∃ t, step (running 0) = .next t :=
  ⟨⟨by decide, by decide, by decide⟩, _, rfl⟩
theorem witness_SequencerNeverLeavesItsRoutine : (running 1).Inv := ⟨by decide, by decide, by decide⟩
theorem witness_RunsReachOnlyInvariantStates :
    ∃ t, Host.Core.run Sys2Proof.core 1 (State.runStart [.write 2047 7#32]) = .next t := ⟨_, rfl⟩
theorem witness_FaultedRunNeverEndsWell :
    Host.Core.run Sys2Proof.core 2 (State.runStart [.write 4 1#32, .read 2048]) =
      .fault (.outOfBounds .hostRead 2048) := rfl
/-- `EndsWell` can be met: one host write after reset. -/
theorem witness_EndsWell : ∃ t, EndsWell [.write 4 1#32] t :=
  ⟨_, ⟨1, rfl⟩, rfl, rfl, none, rfl⟩

end Sys2Proof.Tests
end

section
/-! PROOFS. Who writes a word of memory (`00_scope.md` R3, `10_state.md` R33, `40_primitives.md` R84), from one primitive up
to one step, and the step of an IDLE block with nothing presented. -/

namespace Sys2Proof.Machine

/-- A write changes no word but the one its index names. -/
theorem setWord_word_changed {s : State} {j k : Nat} {v : Word} (hk : (s.setWord j v).word k ≠ s.word k) : j = k := by
  by_contra hj
  exact hk (setWord_word_of_ne s j k v hj)

/-- The primitive that changes a word is a `mov`, and its address names that word (R84). -/
theorem execPrim_word_changed {p : Prim} {s t : State} {k : Nat} (h : execPrim p s = .ok t) (hk : t.word k ≠ s.word k) :
    ∃ a r, p = .mov a r ∧ xlate a = .ok k := by
  obtain ⟨a, r, rfl, ha, rfl⟩ | ⟨r, a, -, -, rfl⟩ := execPrim_cases h
  · exact ⟨a, r, rfl, xlate_eq_ok.2 ⟨ha, setWord_word_changed hk⟩⟩
  · exact absurd (setReg_word _ _ _ k) hk

/-- A routine that changes a word holds a `mov` whose address names it. -/
theorem runPrims_word_changed {ps : List Prim} {s t : State} {k : Nat} (h : runPrims ps s = .ok t)
    (hk : t.word k ≠ s.word k) : ∃ a r, Prim.mov a r ∈ ps ∧ xlate a = .ok k := by
  by_contra hnone
  refine hk (runPrims_word_of_no_mov h k fun a r hm hak => hnone ⟨a, r, hm, ?_⟩)
  exact xlate_eq_ok.2 ⟨runPrims_mov_inBounds h hm, hak⟩

/-- A command that changes a word has, in its row of the micro-ROM, a `mov` whose address names it. -/
theorem exec_word_changed {i : Instr} {s t : State} {k : Nat} (h : exec i s = .next t) (hk : t.word k ≠ s.word k) :
    ∃ a r, Prim.mov a r ∈ rom i ∧ xlate a = .ok k := by
  obtain ⟨-, u, hu, rfl⟩ := exec_next h
  exact runPrims_word_changed hu hk

/-- The micro-step that changes a word is a `mov` whose address names it, whether it is the last of its command or not. -/
theorem microStep_word_changed {c : Instr} {upc : Nat} {s t : State} {k : Nat} (h : microStep c upc s = .next t)
    (hk : t.word k ≠ s.word k) : ∃ a r, (rom c)[upc]? = some (.mov a r) ∧ xlate a = .ok k := by
  obtain ⟨p, u, hp, hu, ht⟩ := microStep_next h
  have hword : t.word k = u.word k := by
    obtain ⟨-, rfl⟩ | ⟨-, rfl⟩ := ht
    · exact complete_word u none k
    · exact running_word u c (upc + 1) k
  obtain ⟨a, r, rfl, ha⟩ := execPrim_word_changed hu (hword ▸ hk)
  exact ⟨a, r, hp, ha⟩

/-- Settles O42, branch by branch of what a step can do: four of the seven can write a word, and each of those names its
writer. -/
theorem onlyMovHostAndResetWriteMemory : Obligations.OnlyMovHostAndResetWriteMemory := by
  intro s t k h hk
  obtain ⟨-, -, rfl⟩ | ⟨rest, hr, -⟩ | ⟨w, rest, i, hs, hr, hi, he⟩ | ⟨w, rest, i, -, -, -, rfl⟩ |
    ⟨a, rest, -, -, -, rfl⟩ | ⟨a, v, rest, hs, hr, ha, rfl⟩ | ⟨c, upc, hs, -, hm⟩ := step_cases h
  · exact absurd rfl hk
  · exact .inl (congrArg List.head? hr)
  · obtain ⟨a, r, hmem, ha⟩ := exec_word_changed he hk
    exact .inr (.inl ⟨w, rest, i, a, r, hs, hr, hi, hmem, ha⟩)
  · exact absurd (running_word (s.setRequests rest) i 0 k) hk
  · exact absurd (complete_word (s.setRequests rest) _ k) hk
  · have hak : a / 4 = k := setWord_word_changed (s := s.setRequests rest) hk
    exact .inr (.inr (.inr ⟨a, v, rest, hs, hr, xlate_eq_ok.2 ⟨ha, hak⟩⟩))
  · obtain ⟨a, r, hp, ha⟩ := microStep_word_changed hm hk
    exact .inr (.inr (.inl ⟨c, upc, a, r, hs, hp, ha⟩))

/-- Settles O38: an IDLE block takes the host's next transaction, and there is none. -/
theorem nothingHappensBetweenTransactions : Obligations.NothingHappensBetweenTransactions := by
  intro s hs hr
  rw [step_idle hs]
  simp [stepIdle, hr]

end Sys2Proof.Machine
end

section
/-! PROOFS. The invariant of the state (`10_state.md` R25, R26): it holds at reset and after a fault, every step keeps it, and
it leaves the sequencer no micro-step to miss. -/

namespace Sys2Proof.Machine

/-- A micro-step keeps the canonical form of memory and leaves `seq` in its range: it ends the command or goes on to an index
that is still inside the routine. -/
theorem microStep_keeps_inv {c : Instr} {upc : Nat} {s t : State} (hs : s.seq = .run c upc) (hinv : s.Inv)
    (h : microStep c upc s = .next t) : t.Inv := by
  obtain ⟨hmem, hseq⟩ := hinv
  rw [hs] at hseq
  obtain ⟨hwf, hupc⟩ := hseq
  obtain ⟨p, u, -, hu, ht⟩ := microStep_next h
  have humem : Memory.wf u.mem := execPrim_wf hu hmem
  obtain ⟨-, rfl⟩ | ⟨hne, rfl⟩ := ht
  · exact ⟨humem, trivial⟩
  · exact ⟨humem, hwf, by omega⟩

/-- A command leaves the block IDLE with its memory in canonical form. -/
theorem exec_keeps_inv {i : Instr} {s t : State} (hmem : Memory.wf s.mem) (h : exec i s = .next t) : t.Inv := by
  obtain ⟨hidle, -⟩ := exec_frame h
  refine ⟨exec_keeps_wf h hmem, ?_⟩
  rw [hidle]
  trivial

/-- Settles O48, branch by branch of what a step can do: the range of `seq` turns on a latched command being a decoded one and
on the micro-step that is not the last of its routine. -/
theorem stepKeepsTheInvariant : Obligations.StepKeepsTheInvariant := by
  intro s t hinv h
  have hmem : Memory.wf s.mem := hinv.1
  obtain ⟨-, -, rfl⟩ | ⟨rest, -, rfl⟩ | ⟨w, rest, i, -, -, -, he⟩ | ⟨w, rest, i, -, -, hi, rfl⟩ |
    ⟨a, rest, -, -, -, rfl⟩ | ⟨a, v, rest, -, -, ha, rfl⟩ | ⟨c, upc, hs, -, hm⟩ := step_cases h
  · exact hinv
  · exact ⟨wf_nil, trivial⟩
  · exact exec_keeps_inv (s := s.setRequests rest) hmem he
  · exact ⟨hmem, decode_wf hi, rom_ne_nil i⟩
  · exact ⟨hmem, trivial⟩
  · exact ⟨wf_put _ _ _ (by omega) hmem, trivial⟩
  · exact microStep_keeps_inv hs hinv hm

/-- Settles O49: the memory of `State.reset` is empty, and free memory is written word by word inside the array. -/
theorem invariantHoldsAtReset : Obligations.InvariantHoldsAtReset :=
  ⟨⟨wf_nil, trivial⟩, fun s => ⟨wf_lostMemory s.freeCounter 512 le_rfl, trivial⟩⟩

/-- A command is refused only because the block is not IDLE (R119, R120). -/
theorem exec_refused {i : Instr} {s : State} {r : Refusal} (h : exec i s = .refused r) : r = .notAccepted := by
  rw [exec_eq_runCommand] at h
  unfold runCommand at h
  split at h
  · split at h <;> cases h
  · cases h; rfl
  · cases h; rfl

/-- A host read is refused only because the block is not IDLE. -/
theorem hostRead_refused {a : Nat} {s : State} {r : Refusal} (h : hostRead a s = .refused r) : r = .notAccepted := by
  unfold hostRead at h
  split at h
  · split at h <;> cases h
  · cases h; rfl
  · cases h; rfl

/-- A host write is refused only because the block is not IDLE. -/
theorem hostWrite_refused {a : Nat} {v : Word} {s : State} {r : Refusal} (h : hostWrite a v s = .refused r) :
    r = .notAccepted := by
  unfold hostWrite at h
  split at h
  · split at h <;> cases h
  · cases h; rfl
  · cases h; rfl

/-- A transaction is refused as not accepted or as an illegal word, never for want of a micro-step. -/
theorem accept_ne_noMicroStep (r : Request) (s : State) : accept r s ≠ .refused .noMicroStep := by
  intro h
  cases r with
  | reset => cases h
  | command w =>
    simp only [accept, acceptCommand] at h
    split at h
    · cases h
    · cases exec_refused h
  | stepped w =>
    simp only [accept, acceptStepped] at h
    split at h <;> cases h
  | read a => cases hostRead_refused h
  | write a v => cases hostWrite_refused h

/-- A micro-step is refused only where the routine has none at its index. -/
theorem length_le_of_microStep_refused {c : Instr} {upc : Nat} {s : State} {r : Refusal} (h : microStep c upc s = .refused r) :
    (rom c).length ≤ upc := by
  unfold microStep at h
  split at h
  · next hnone => exact List.getElem?_eq_none_iff.1 hnone
  · split at h
    · cases h
    · split at h <;> cases h

/-- The refusal `noMicroStep` comes only from a running command whose index is past the end of its routine. -/
theorem step_noMicroStep {s : State} (h : step s = .refused .noMicroStep) :
    ∃ c upc, s.seq = .run c upc ∧ (rom c).length ≤ upc := by
  obtain hs | ⟨c, upc, hs⟩ | hs := seq_cases s
  · rw [step_idle hs] at h
    unfold stepIdle at h
    split at h
    · cases h
    · exact absurd h (accept_ne_noMicroStep _ _)
  · rw [step_run hs] at h
    unfold stepRun at h
    split at h
    · cases h
    · exact ⟨c, upc, hs, length_le_of_microStep_refused h⟩
  · rw [step_halted hs] at h
    unfold stepHalted at h
    split at h <;> cases h

/-- Settles O50: the refusal needs an index that the range of `seq` excludes. -/
theorem sequencerNeverLeavesItsRoutine : Obligations.SequencerNeverLeavesItsRoutine := by
  rintro s ⟨-, hseq⟩ h
  obtain ⟨c, upc, hs, hlen⟩ := step_noMicroStep h
  rw [hs] at hseq
  exact absurd hseq.2 (by omega)

end Sys2Proof.Machine
end

section
/-! PROOFS. The registers (`10_state.md` R20, R22, R23, R31, R32): who writes one, from one primitive up to one step; what
one that nothing wrote reads as; and that the two are alike. -/

namespace Sys2Proof.Machine

/-- Settles O1: R31's table, row by row. -/
theorem resetValues : Obligations.ResetValues :=
  ⟨rfl, rfl, word_nil, rfl, rfl, rfl⟩

/-! ### Who writes a register -/

/-- The primitive that changes a register is a `sub` into it (R81). -/
theorem execPrim_reg_changed {p : Prim} {s t : State} {r : Reg} (h : execPrim p s = .ok t) (hr : t.reg r ≠ s.reg r) :
    ∃ a, p = .sub r a := by
  obtain ⟨d, q, -, -, rfl⟩ | ⟨q, a, rfl, -, rfl⟩ := execPrim_cases h
  · exact absurd (setWord_reg s (d / 4) _ r) hr
  · by_cases hq : r = q
    · exact ⟨a, by rw [hq]⟩
    · exact absurd (setReg_reg_of_ne s q r _ hq) hr

/-- A command that changes a register has, in its row of the micro-ROM, a `sub` into it. -/
theorem exec_reg_changed {i : Instr} {s t : State} {r : Reg} (h : exec i s = .next t) (hr : t.reg r ≠ s.reg r) :
    ∃ a, Prim.sub r a ∈ rom i := by
  obtain ⟨-, u, hu, rfl⟩ := exec_next h
  rw [complete_reg] at hr
  by_contra hnone
  exact hr (runPrims_reg_of_no_sub hu r fun a ha => hnone ⟨a, ha⟩)

/-- The micro-step that changes a register is a `sub` into it, whether it is the last of its command or not. -/
theorem microStep_reg_changed {c : Instr} {upc : Nat} {s t : State} {r : Reg} (h : microStep c upc s = .next t)
    (hr : t.reg r ≠ s.reg r) : ∃ a, (rom c)[upc]? = some (.sub r a) := by
  obtain ⟨p, u, hp, hu, ht⟩ := microStep_next h
  have hreg : t.reg r = u.reg r := by
    obtain ⟨-, rfl⟩ | ⟨-, rfl⟩ := ht
    · exact complete_reg u none r
    · exact running_reg u c (upc + 1) r
  obtain ⟨a, rfl⟩ := execPrim_reg_changed hu (hreg ▸ hr)
  exact ⟨a, hp⟩

/-- Settles O41, branch by branch of what a step can do: only a reset, a command and a micro-step can touch a register. -/
theorem onlySubAndResetWriteRegisters : Obligations.OnlySubAndResetWriteRegisters := by
  intro s t r h hr
  obtain ⟨-, -, rfl⟩ | ⟨rest, hreq, -⟩ | ⟨w, rest, i, hs, hreq, hi, he⟩ | ⟨w, rest, i, -, -, -, rfl⟩ |
    ⟨a, rest, -, -, -, rfl⟩ | ⟨a, v, rest, -, -, -, rfl⟩ | ⟨c, upc, hs, -, hm⟩ := step_cases h
  · exact absurd rfl hr
  · exact .inl (congrArg List.head? hreq)
  · obtain ⟨a, ha⟩ := exec_reg_changed he (by rwa [setRequests_reg])
    exact .inr (.inl ⟨w, rest, i, a, hs, hreq, hi, ha⟩)
  · exact absurd (by simp) hr
  · exact absurd (by simp) hr
  · exact absurd (by simp) hr
  · obtain ⟨a, ha⟩ := microStep_reg_changed hm hr
    exact .inr (.inr ⟨c, upc, a, hs, ha⟩)

/-! ### A register nothing has written since reset -/

@[simp] theorem resetBlock_reg (s : State) (r : Reg) : (resetBlock s).reg r = 0xFFFFFFFF#32 := by cases r <;> rfl

@[simp] theorem runStart_reg (l : List Request) (r : Reg) : (State.runStart l).reg r = 0xFFFFFFFF#32 := by
  cases r <;> rfl

/-- In every shape of `seq` a reset presented is taken (R112). -/
theorem step_reset {s : State} {rest : List Request} (h : s.requests = .reset :: rest) :
    step s = .next (resetBlock (s.setRequests rest)) := by
  obtain hs | ⟨c, upc, hs⟩ | hs := seq_cases s
  · rw [step_idle hs]; simp [stepIdle, h, accept]
  · rw [step_run hs]; simp [stepRun, h]
  · rw [step_halted hs]; simp [stepHalted, h]

/-- A step that takes a reset leaves every register at −1. -/
theorem step_resetNext_reg {s t : State} (hreset : s.resetNext) (h : step s = .next t) (r : Reg) :
    t.reg r = 0xFFFFFFFF#32 := by
  obtain ⟨rest, hreq⟩ := List.head?_eq_some_iff.1 hreset
  rw [step_reset hreq] at h
  cases h
  exact resetBlock_reg _ r

/-- A register that no `sub` has written since reset holds −1: the steps that change one are ruled out. -/
theorem reg_of_notWrittenSinceReset {r : Reg} {s : State} (h : NotWrittenSinceReset r s) : s.reg r = 0xFFFFFFFF#32 := by
  induction h with
  | start l => exact runStart_reg l r
  | reset hreset hstep => exact step_resetNext_reg hreset hstep r
  | @step s t _ hsub hstep ih =>
    by_cases hr : t.reg r = s.reg r
    · exact hr.trans ih
    · obtain hreset | hwrite := onlySubAndResetWriteRegisters s t r hstep hr
      · exact step_resetNext_reg hreset hstep r
      · exact absurd hwrite hsub

/-- The command `mov` in an IDLE block, on an address inside the memory. -/
theorem exec_mov {s : State} {dest : Nat} (hs : s.seq = .idle) (hd : dest < 2048) (src : Reg) :
    exec (.mov dest src) s = .next ((s.setWord (dest / 4) (s.reg src)).complete none) :=
  exec_ok hs (runPrims_movRoutine hd src s)

/-- The command `sub` in an IDLE block, on an address inside the memory. -/
theorem exec_sub {s : State} {src : Nat} (hs : s.seq = .idle) (ha : src < 2048) (dest : Reg) :
    exec (.sub dest src) s = .next ((s.setReg dest (s.reg dest - s.word (src / 4))).complete none) :=
  exec_ok hs (runPrims_subRoutine ha dest s)

/-- Settles O2: the register holds −1, and the primitives and commands read what it holds. -/
theorem unwrittenRegisterReadsMinusOne : Obligations.UnwrittenRegisterReadsMinusOne := by
  intro r s h
  have hr := reg_of_notWrittenSinceReset h
  refine ⟨hr, fun addr ha => ⟨?_, ?_, fun hs => ⟨⟨_, exec_mov hs ha r, ?_⟩, ⟨_, exec_sub hs ha r, ?_⟩⟩⟩⟩
  · rw [execPrim_mov ha, hr]
  · rw [execPrim_sub ha, hr, wrapSub_eq]
  · rw [complete_word, setWord_word_self, hr]
  · rw [complete_reg, setReg_reg, hr, wrapSub_eq]

/-! ### The two registers are alike -/

/-- A primitive with the other register in its register operand: `renameReg` of one micro-step. -/
def renamePrim : Prim → Prim
  | .mov dest src => .mov dest (otherReg src)
  | .sub dest src => .sub (otherReg dest) src

/-- Apart from `swap`, which names no register, the row of the renamed command is the renamed row. -/
theorem rom_renameReg {i : Instr} (h : ∀ a b, i ≠ .swap a b) : rom (renameReg i) = (rom i).map renamePrim := by
  cases i with
  | mov dest src => rfl
  | sub dest src => rfl
  | stc addr reg => rfl
  | load reg addr => rfl
  | swap a b => exact absurd rfl (h a b)

theorem exchangeRegs_setReg (s : State) (r : Reg) (v : Word) :
    s.exchangeRegs.setReg (otherReg r) v = (s.setReg r v).exchangeRegs := by
  cases r <;> rfl

theorem exchangeRegs_setWord (s : State) (k : Nat) (v : Word) :
    s.exchangeRegs.setWord k v = (s.setWord k v).exchangeRegs := rfl

/-- A primitive does with the registers exchanged the same with them exchanged. -/
theorem execPrim_exchangeRegs {p : Prim} {s t : State} (h : execPrim p s = .ok t) :
    execPrim (renamePrim p) s.exchangeRegs = .ok t.exchangeRegs := by
  obtain ⟨dest, src, rfl, hd, rfl⟩ | ⟨dest, src, rfl, ha, rfl⟩ := execPrim_cases h
  · rw [renamePrim, execPrim_mov hd, exchangeRegs_reg, exchangeRegs_setWord]
  · rw [renamePrim, execPrim_sub ha, exchangeRegs_reg, exchangeRegs_word, exchangeRegs_setReg]

theorem runPrims_exchangeRegs {ps : List Prim} {s t : State} (h : runPrims ps s = .ok t) :
    runPrims (ps.map renamePrim) s.exchangeRegs = .ok t.exchangeRegs := by
  induction ps generalizing s with
  | nil => cases h; rfl
  | cons p ps ih =>
    cases hp : execPrim p s with
    | error a => rw [runPrims_cons_error hp] at h; cases h
    | ok u =>
      rw [runPrims_cons hp] at h
      rw [List.map_cons, runPrims_cons (execPrim_exchangeRegs hp), ih h]

/-- Settles O43: the row of the renamed command is the renamed row, and every primitive of it commutes with the exchange. -/
theorem registersAreSymmetric : Obligations.RegistersAreSymmetric := by
  intro i s t hi h
  obtain ⟨hs, u, hu, rfl⟩ := exec_next h
  refine exec_ok (u := u.exchangeRegs) hs ?_
  rw [rom_renameReg hi]
  exact runPrims_exchangeRegs hu

end Sys2Proof.Machine
end

section
/-! PROOFS. The memory (`20_memory.md` R42, R43, R46, R47, R50, R55): the translator, every word as plain storage, and that
what a store writes is never what runs. -/

namespace Sys2Proof.Machine

/-! ### Every word is plain storage -/

/-- A write that answers was inside the memory, and it is the write of that word. -/
theorem memWrite_eq_ok {addr : Nat} {v : Word} {s t : State} :
    memWrite addr v s = .ok t ↔ addr < 2048 ∧ t = s.setWord (addr / 4) v := by
  by_cases ha : addr < 2048
  · simp [memWrite_ok ha, ha, eq_comm]
  · simp [memWrite_error (Nat.le_of_not_lt ha), ha]

/-- Settles O6: the write that answered is a `setWord`, whose word reads back, and every other word reads as before. -/
theorem readReturnsLastWrite : Obligations.ReadReturnsLastWrite := by
  refine ⟨fun a ha => memRead_ok ha State.reset, fun a v s t h => ?_⟩
  obtain ⟨ha, rfl⟩ := memWrite_eq_ok.1 h
  refine ⟨?_, fun b hb => ?_, setWord_x1 .., setWord_x2 .., setWord_seq ..⟩
  · rw [memRead_ok ha, setWord_word_self]
  · exact memRead_congr fun _ => setWord_word_of_ne s (a / 4) (b / 4) v hb.symm

/-! ### The translator -/

/-- Settles O4: `addr / 4` is the index below 2048, and from 2048 up the address itself is the fault's. -/
theorem translatorDividesAndChecks : Obligations.TranslatorDividesAndChecks := by
  refine ⟨fun addr h => ⟨addr / 4, xlate_ok h, ?_, ?_, ?_⟩, fun addr h => xlate_error h⟩ <;> omega

/-- Settles O5: the aligned address of the word has the same index, and inside the memory only the index is used. -/
theorem misalignedAddressNamesItsWord : Obligations.MisalignedAddressNamesItsWord := by
  refine ⟨fun addr s v h => ?_, fun a b ha hb => ?_⟩
  · have haligned : 4 * (addr / 4) < 2048 := (Nat.mul_div_le addr 4).trans_lt h
    have hindex : 4 * (addr / 4) / 4 = addr / 4 := Nat.mul_div_cancel_left _ (by decide)
    constructor
    · rw [memRead_ok h, memRead_ok haligned, hindex]
    · rw [memWrite_ok h, memWrite_ok haligned, hindex]
  · rw [xlate_ok ha, xlate_ok hb, Except.ok.injEq]

/-! ### Commands come from the host alone -/

/-- An IDLE block runs the command the host presents next, as the word of it decodes, with the word taken from the list
(R113). -/
theorem step_command {s : State} {w : CmdWord} {rest : List Request} {i : Instr} (hs : s.seq = .idle)
    (hr : s.requests = .command w :: rest) (hi : decode w = .ok i) : step s = exec i (s.setRequests rest) := by
  rw [step_idle hs]
  simp [stepIdle, hr, accept, acceptCommand, hi]

/-- Settles O44: a completed command leaves the block IDLE and the host's list as it was, and the step decodes from that
list. -/
theorem storeCannotChangeWhatRunsNext : Obligations.StoreCannotChangeWhatRunsNext := by
  intro i j s t w rest h hr hj
  obtain ⟨hidle, hreq, -, -⟩ := exec_frame h
  exact step_command hidle (hreq.trans hr) hj

end Sys2Proof.Machine
end

section
/-! PROOFS. The command encoding (`30_encoding.md` R65 to R68, R72): encode and decode are inverse, the mask and match of
every row, and the illegal words. -/

namespace Sys2Proof

/-! ### Encode and decode are inverse -/

/-- Every command whose addresses fit their fields is read back from its word. -/
theorem decode_encode {i : Instr} (h : i.wf = true) : decode (encode i) = .ok i := by
  rw [decode_iff]
  cases i with
  | mov a r | sub r a | stc a r | load r a =>
    have ha : a < 2 ^ 32 := (addrFits_iff a).1 h
    have hr : bitOfReg r ≤ 1 := Nat.le_of_lt_succ (bitOfReg_lt r)
    simpa [encode, opField_packWord, rsvField_packWord, regField_packWord, addrBField_packWord, addrAField_packWord, hr]
      using (Nat.mod_eq_of_lt ha).symm
  | swap a b =>
    obtain ⟨ha, hb⟩ : a < 2 ^ 32 ∧ b < 2 ^ 32 := by simpa only [Instr.wf, Bool.and_eq_true, addrFits_iff] using h
    simpa [encode, opField_packWord, rsvField_packWord, regField_packWord, addrBField_packWord, addrAField_packWord]
      using And.intro (Nat.mod_eq_of_lt ha).symm (Nat.mod_eq_of_lt hb).symm

/-- The fields of a word whose reserved field is 0, packed again, are the word. -/
theorem packWord_fields {w : CmdWord} (h : rsvField w = 0) :
    packWord (opField w) (regField w) (addrBField w) (addrAField w) = w := by
  apply BitVec.eq_of_toNat_eq
  rw [packWord_toNat (opField_lt w) (regField_lt w), Nat.mod_eq_of_lt (addrBField_lt w),
    Nat.mod_eq_of_lt (addrAField_lt w), word_of_fields w, h]
  omega

/-- A legal word is the word of the command it decodes to: the fields that command does not use are 0. -/
theorem encode_of_decode {w : CmdWord} {i : Instr} (h : decode w = .ok i) : encode i = w := by
  obtain ⟨hrsv, hi⟩ := decode_cases h
  have hbit := bitOfReg_regOfBit (regField w) (regField_lt w)
  have hw := packWord_fields hrsv
  obtain ⟨hop, hb, rfl⟩ | ⟨hop, hb, rfl⟩ | ⟨hop, hb, rfl⟩ | ⟨hop, hb, rfl⟩ | ⟨hop, hreg, rfl⟩ := hi
  iterate 4 · rwa [hop, hb, ← hbit] at hw
  · rwa [hop, hreg] at hw

/-- Settles O31: a well-formed command is read back from its word, and a legal word is the word of the command it spells, so
two words of one command are equal. -/
theorem commandEncodingRoundTrip : Obligations.CommandEncodingRoundTrip :=
  ⟨fun _ => decode_encode, fun _ _ h => ⟨decode_wf h, encode_of_decode h⟩,
    fun _ _ _ hv hw => (encode_of_decode hv).symm.trans (encode_of_decode hw)⟩

/-! ### The mask and match of every row -/

/-- A field as a bit vector is `v` exactly when the number in its place is `v`. -/
theorem extractLsb'_eq_iff (w : CmdWord) (lo len : Nat) (v : BitVec len) :
    w.extractLsb' lo len = v ↔ w.toNat / 2 ^ lo % 2 ^ len = v.toNat := by
  rw [BitVec.toNat_eq, BitVec.extractLsb'_toNat, Nat.shiftRight_eq_div_pow]

/-- A mask and a match written field by field (R61) are met field by field. -/
theorem and_eq_iff_fields (w : CmdWord) (mop op : BitVec 4) (mrsv rsv : BitVec 3) (mreg reg : BitVec 1)
    (mb b ma a : BitVec 32) :
    w &&& (mop ++ mrsv ++ mreg ++ mb ++ ma) = op ++ rsv ++ reg ++ b ++ a ↔
      w.extractLsb' 68 4 &&& mop = op ∧ w.extractLsb' 65 3 &&& mrsv = rsv ∧ w.extractLsb' 64 1 &&& mreg = reg ∧
        w.extractLsb' 32 32 &&& mb = b ∧ w.extractLsb' 0 32 &&& ma = a := by
  conv_lhs => rw [word_eq_append w]
  iterate 4 rw [BitVec.and_append, append_eq_append_iff]
  simp only [and_assoc]

/-- The mask of the commands of one address keeps `op`, `rsv` and `addr_b` and clears the rest (R65). -/
theorem and_oneAddressMask_eq_iff (w : CmdWord) (op : BitVec 4) :
    w &&& 0xFEFFFFFFFF00000000#72 = op ++ 0#3 ++ 0#1 ++ 0#32 ++ 0#32 ↔
      rsvField w = 0 ∧ opField w = op.toNat ∧ addrBField w = 0 := by
  refine (and_eq_iff_fields w (.allOnes 4) op (.allOnes 3) 0#3 0#1 0#1 (.allOnes 32) 0#32 0#32 0#32).trans ?_
  simp only [BitVec.and_allOnes, BitVec.and_zero, extractLsb'_eq_iff, true_and, and_true]
  exact and_left_comm

/-- The mask of `swap` keeps `op`, `rsv` and `reg` and clears both addresses (R65). -/
theorem and_swapMask_eq_iff (w : CmdWord) (op : BitVec 4) :
    w &&& 0xFF0000000000000000#72 = op ++ 0#3 ++ 0#1 ++ 0#32 ++ 0#32 ↔
      rsvField w = 0 ∧ opField w = op.toNat ∧ regField w = 0 := by
  refine (and_eq_iff_fields w (.allOnes 4) op (.allOnes 3) 0#3 (.allOnes 1) 0#1 0#32 0#32 0#32 0#32).trans ?_
  simp only [BitVec.and_allOnes, BitVec.and_zero, extractLsb'_eq_iff, and_true]
  exact and_left_comm

/-- Settles O32: the mask keeps the fields the row checks, and the match is the row's `op` in its place. -/
theorem decodeFollowsMaskAndMatch : Obligations.DecodeFollowsMaskAndMatch := by
  refine fun w => ⟨?_, ?_, ?_, ?_, ?_⟩
  · exact .trans (by simp [decode_iff]) (and_oneAddressMask_eq_iff w 1#4).symm
  · exact .trans (by simp [decode_iff]) (and_oneAddressMask_eq_iff w 2#4).symm
  · exact .trans (by simp [decode_iff]) (and_oneAddressMask_eq_iff w 3#4).symm
  · exact .trans (by simp [decode_iff]) (and_oneAddressMask_eq_iff w 4#4).symm
  · exact .trans (by simp [decode_iff]) (and_swapMask_eq_iff w 5#4).symm

/-! ### The illegal words -/

/-- The decoder gives a reason exactly where it gives no command (R68). -/
theorem decode_error_iff (w : CmdWord) : (∃ why, decode w = .error why) ↔ ¬ ∃ i, decode w = .ok i := by
  cases decode w <;> simp

/-- The legal words, by their fields (R65). -/
theorem decode_ok_iff (w : CmdWord) : (∃ i, decode w = .ok i) ↔ rsvField w = 0 ∧
    ((1 ≤ opField w ∧ opField w ≤ 4 ∧ addrBField w = 0) ∨ (opField w = 5 ∧ regField w = 0)) := by
  simp only [decode_iff, exists_and_left, exists_or, exists_eq, and_true]
  omega

/-- Settles O33: the illegal words are the complement of the legal ones, and a field `reg` that is not 0 is 1. -/
theorem illegalWordsAreExactlyThese : Obligations.IllegalWordsAreExactlyThese := by
  intro w
  have hreg := regField_lt w
  rw [decode_error_iff, decode_ok_iff]
  omega

/-- Settles O34: nine closed words, each through the decoder. -/
theorem sampleWordsDecode : Obligations.SampleWordsDecode := by
  unfold Obligations.SampleWordsDecode
  decide

end Sys2Proof

namespace Sys2Proof.Machine

/-! ### An illegal word presented to the block -/

/-- An IDLE block that is presented an illegal word, in either form, refuses the run there (R67, R121). -/
theorem step_illegal {s : State} {w : CmdWord} {rest : List Request} {why : IllegalReason} (hs : s.seq = .idle)
    (hr : s.requests = .command w :: rest ∨ s.requests = .stepped w :: rest) (hw : decode w = .error why) :
    step s = .refused (.illegalCommand w why) := by
  rw [step_idle hs]
  obtain hr | hr := hr
  · simp [stepIdle, hr, accept, acceptCommand, hw]
  · simp [stepIdle, hr, accept, acceptStepped, hw]

/-- Settles O36: an illegal word is refused in either form of the transaction. -/
theorem illegalCommandIsRefused : Obligations.IllegalCommandIsRefused := fun _ _ _ _ => step_illegal

/-- Settles O37: the step is the refusal of that word, so the block after it is `rejectIllegal`, which sets the response
only. -/
theorem illegalCommandLeavesTheBlock : Obligations.IllegalCommandLeavesTheBlock := by
  intro s w rest why hs hr hw
  have hafter : blockAfter s = some (rejectIllegal (s.setRequests s.requests.tail)) := by
    simp [blockAfter, step_illegal hs hr hw]
  have htail : s.requests.tail = rest := by obtain hr | hr := hr <;> rw [hr, List.tail_cons]
  exact ⟨_, hafter, rfl, rfl, fun _ => rfl, hs, htail, _, rfl, rfl⟩

end Sys2Proof.Machine
end

section
/-! PROOFS. The two primitive commands (`40_primitives.md` R80 to R85): the arithmetic of `sub`, what `mov` and `sub` do and
leave alone, the words that spell them, and what every command answers. -/

namespace Sys2Proof

/-- The words of `mov`, field by field (R65, R80). -/
theorem decode_mov_iff {w : CmdWord} {dest : Nat} {src : Reg} : decode w = .ok (.mov dest src) ↔
    opField w = 1 ∧ rsvField w = 0 ∧ regField w = bitOfReg src ∧ addrAField w = dest ∧ addrBField w = 0 := by
  simp only [decode_iff, Instr.mov.injEq, reduceCtorEq, and_false, or_false, eq_regOfBit (regField_lt w),
    eq_comm (a := dest)]
  tauto

/-- The words of `sub`, field by field (R65, R81). -/
theorem decode_sub_iff {w : CmdWord} {dest : Reg} {src : Nat} : decode w = .ok (.sub dest src) ↔
    opField w = 2 ∧ rsvField w = 0 ∧ regField w = bitOfReg dest ∧ addrAField w = src ∧ addrBField w = 0 := by
  simp only [decode_iff, Instr.sub.injEq, reduceCtorEq, and_false, or_false, false_or, eq_regOfBit (regField_lt w),
    eq_comm (a := src)]
  tauto

end Sys2Proof

namespace Sys2Proof.Machine

/-! ### Wrapping subtraction -/

/-- Wrapping subtraction gives the same bits under the signed reading (R83). -/
theorem wrapSub_eq_wrap32_toInt (a b : Word) : wrapSub a b = wrap32 (a.toInt - b.toInt) := by
  apply BitVec.eq_of_toInt_eq
  rw [wrapSub_eq, wrap32, BitVec.toInt_sub, BitVec.toInt_ofInt]

/-- The signed value of a wrapped integer is the integer moved by the multiple of 2^32 that brings it into range. -/
theorem wrap32_toInt {z : Int} (k : Int) (hlo : -2 ^ 31 ≤ z + 2 ^ 32 * k) (hhi : z + 2 ^ 32 * k < 2 ^ 31) :
    (wrap32 z).toInt = z + 2 ^ 32 * k := by
  rw [wrap32, BitVec.toInt_ofInt, ← Int.add_mul_bmod_self_left z _ k]
  exact Int.bmod_eq_of_le (by simpa using hlo) (by simpa using hhi)

/-- A wrapped difference of two words is off by at most one multiple of 2^32: the one that brings it into range. -/
theorem wrapSub_toInt (a b : Word) (k : Int) (hlo : -2 ^ 31 ≤ a.toInt - b.toInt + 2 ^ 32 * k)
    (hhi : a.toInt - b.toInt + 2 ^ 32 * k < 2 ^ 31) : (wrapSub a b).toInt = a.toInt - b.toInt + 2 ^ 32 * k := by
  rw [wrapSub_eq_wrap32_toInt, wrap32_toInt k hlo hhi]

/-- The exact difference of two words is less than 2^32 either way. -/
theorem toInt_sub_toInt_bounds (a b : Word) : -2 ^ 32 < a.toInt - b.toInt ∧ a.toInt - b.toInt < 2 ^ 32 := by
  have ⟨_, _⟩ : -2 ^ 31 ≤ a.toInt ∧ a.toInt < 2 ^ 31 := ⟨a.le_toInt, a.toInt_lt⟩
  have ⟨_, _⟩ : -2 ^ 31 ≤ b.toInt ∧ b.toInt < 2 ^ 31 := ⟨b.le_toInt, b.toInt_lt⟩
  omega

/-- Settles O7: the signed rows move the exact difference by 0, −1 or 1 times 2^32, and the others are the group laws of
`BitVec`. -/
theorem wrappingSubtractionLaws : Obligations.WrappingSubtractionLaws := by
  refine ⟨wrapSub_eq_wrap32_toInt, fun a b hlo hhi => ?_, fun a b h => ?_, fun a b h => ?_, fun a => ?_, fun a => ?_,
    fun b => ?_, fun b => ?_, fun a b => ?_, fun a b c => ?_, by decide⟩
  · have := wrapSub_toInt a b 0 (by omega) (by omega)
    omega
  · have := toInt_sub_toInt_bounds a b
    have := wrapSub_toInt a b (-1) (by omega) (by omega)
    omega
  · have := toInt_sub_toInt_bounds a b
    have := wrapSub_toInt a b 1 (by omega) (by omega)
    omega
  · rw [wrapSub_eq, BitVec.sub_self]
  · rw [wrapSub_eq, BitVec.sub_zero]
  · rw [wrapSub_eq_wrap32_toInt, BitVec.toInt_zero, zero_sub]
  · rw [wrapSub_eq, wrapSub_eq, BitVec.zero_sub, BitVec.zero_sub, BitVec.neg_neg]
  · rw [wrapSub_eq, wrapSub_eq, wrapSub_eq, BitVec.zero_sub, sub_neg_eq_add, sub_add_cancel]
  · rw [wrapSub_eq, wrapSub_eq, wrapSub_eq, wrapSub_eq, sub_right_comm]

/-! ### The two primitive commands -/

/-- The command `mov` in an IDLE block, on an address outside the memory. -/
theorem exec_mov_error {s : State} {dest : Nat} (hs : s.seq = .idle) (hd : 2048 ≤ dest) (src : Reg) :
    exec (.mov dest src) s = .fault (.outOfBounds (.command (.mov dest src)) dest) :=
  exec_error hs (runPrims_movRoutine_error hd src s)

/-- The command `sub` in an IDLE block, on an address outside the memory. -/
theorem exec_sub_error {s : State} {src : Nat} (hs : s.seq = .idle) (ha : 2048 ≤ src) (dest : Reg) :
    exec (.sub dest src) s = .fault (.outOfBounds (.command (.sub dest src)) src) :=
  exec_error hs (runPrims_subRoutine_error ha dest s)

/-- Settles O8: below 2048 the one effect is the word written, from there up there is none. -/
theorem movStoresRegister : Obligations.MovStoresRegister :=
  ⟨fun s _ src hs hd => ⟨_, exec_mov hs hd src, setWord_word_self s _ _,
      fun _ hk => setWord_word_of_ne s _ _ _ hk.symm, rfl, rfl⟩,
    fun _ _ src hs hd => exec_mov_error hs hd src, fun _ _ _ => decode_mov_iff⟩

/-- Settles O9: below 2048 the one effect is the register written, from there up there is none. -/
theorem subSubtractsWord : Obligations.SubSubtractsWord := by
  refine ⟨fun s dest src hs ha => ⟨_, exec_sub hs ha dest, ?_, fun q hq => ?_, fun k => ?_⟩,
    fun _ dest _ hs ha => exec_sub_error hs ha dest, fun _ _ _ => decode_sub_iff⟩
  · rw [complete_reg, setReg_reg, wrapSub_eq]
  · rw [complete_reg, setReg_reg_of_ne _ _ _ _ hq]
  · rw [complete_word, setReg_word]

/-- Everything a completed `mov` has done. -/
theorem exec_mov_next {s t : State} {dest : Nat} {src : Reg} (h : exec (.mov dest src) s = .next t) :
    dest < 2048 ∧ t = (s.setWord (dest / 4) (s.reg src)).complete none := by
  obtain ⟨hs, -⟩ := exec_next h
  by_cases hd : dest < 2048
  · rw [exec_mov hs hd] at h
    cases h
    exact ⟨hd, rfl⟩
  · rw [exec_mov_error hs (by omega)] at h
    cases h

/-- Everything a completed `sub` has done. -/
theorem exec_sub_next {s t : State} {dest : Reg} {src : Nat} (h : exec (.sub dest src) s = .next t) :
    src < 2048 ∧ t = (s.setReg dest (s.reg dest - s.word (src / 4))).complete none := by
  obtain ⟨hs, -⟩ := exec_next h
  by_cases ha : src < 2048
  · rw [exec_sub hs ha] at h
    cases h
    exact ⟨ha, rfl⟩
  · rw [exec_sub_error hs (by omega)] at h
    cases h

/-- Settles O18: an address the translator sends elsewhere names another word, which the write leaves. -/
theorem movFrame : Obligations.MovFrame := by
  intro s t dest src h
  obtain ⟨hd, rfl⟩ := exec_mov_next h
  refine ⟨rfl, rfl, rfl, rfl, fun k hk b hb => memRead_congr fun hb2048 => ?_⟩
  obtain ⟨-, rfl⟩ := xlate_eq_ok.1 hk
  rw [complete_word, setWord_word_of_ne]
  exact fun hsame => hb (xlate_eq_ok.2 ⟨hb2048, hsame.symm⟩)

/-- Settles O19: a completed `sub` has written its register and nothing else. -/
theorem subFrame : Obligations.SubFrame := by
  intro s t dest src h
  obtain ⟨-, hreq, hcount, -⟩ := exec_frame h
  obtain ⟨-, rfl⟩ := exec_sub_next h
  refine ⟨fun q hq => ?_, hreq, hcount, fun b => memRead_congr fun _ => ?_⟩
  · rw [complete_reg, setReg_reg_of_ne _ _ _ _ hq]
  · rw [complete_word, setReg_word]

/-! ### What every command answers -/

/-- Settles O22: the last thing a completed command does is its answer. -/
theorem completedCommandAnswersOk : Obligations.CompletedCommandAnswersOk := by
  intro i s t h
  obtain ⟨hs, -⟩ := exec_next h
  obtain ⟨ht, -, -, hrsp⟩ := exec_frame h
  exact ⟨hs, ht, _, hrsp, rfl, rfl⟩

/-- A command that faults in an IDLE block raised `OutOfBounds` in its routine. -/
theorem exec_fault {i : Instr} {s : State} {f : Fault} (hs : s.seq = .idle) (h : exec i s = .fault f) :
    ∃ a, runPrims (rom i) s = .error a ∧ f = .outOfBounds (.command i) a := by
  cases hr : runPrims (rom i) s with
  | ok u => rw [exec_ok hs hr] at h; cases h
  | error a => rw [exec_error hs hr] at h; cases h; exact ⟨a, rfl, rfl⟩

/-- A fault a command raises in one IDLE block it raises in every IDLE block, its routine being stopped at the same
address (R84). -/
theorem exec_fault_any {i : Instr} {s t : State} {f : Fault} (hs : s.seq = .idle) (ht : t.seq = .idle)
    (h : exec i s = .fault f) : exec i t = .fault f := by
  obtain ⟨a, ha, rfl⟩ := exec_fault hs h
  exact exec_error ht (runPrims_error_any ha t)

/-- Settles O24: the fault carries over from either block to the other. -/
theorem faultDependsOnOperandsOnly : Obligations.FaultDependsOnOperandsOnly :=
  fun _ _ _ _ hs ht => ⟨exec_fault_any hs ht, exec_fault_any ht hs⟩

end Sys2Proof.Machine
end

section
/-! PROOFS. The composite commands (`41_composites.md` R90 to R100): the micro-ROM and the sequencer's step, a command against
its primitives and against its micro-steps, what `stc`, `load` and `swap` do and leave alone, and the words that spell them. -/

namespace Sys2Proof

/-- The words of `stc`, field by field (R65, R91). -/
theorem decode_stc_iff {w : CmdWord} {addr : Nat} {reg : Reg} : decode w = .ok (.stc addr reg) ↔
    opField w = 3 ∧ rsvField w = 0 ∧ regField w = bitOfReg reg ∧ addrAField w = addr ∧ addrBField w = 0 := by
  simp only [decode_iff, Instr.stc.injEq, reduceCtorEq, and_false, or_false, false_or, eq_regOfBit (regField_lt w),
    eq_comm (a := addr)]
  tauto

/-- The words of `load`, field by field (R65, R92). -/
theorem decode_load_iff {w : CmdWord} {reg : Reg} {addr : Nat} : decode w = .ok (.load reg addr) ↔
    opField w = 4 ∧ rsvField w = 0 ∧ regField w = bitOfReg reg ∧ addrAField w = addr ∧ addrBField w = 0 := by
  simp only [decode_iff, Instr.load.injEq, reduceCtorEq, and_false, or_false, false_or, eq_regOfBit (regField_lt w),
    eq_comm (a := addr)]
  tauto

/-- The words of `swap`, field by field: it names no register, and `addr_b` is its second operand (R65, R94). -/
theorem decode_swap_iff {w : CmdWord} {a b : Nat} : decode w = .ok (.swap a b) ↔
    opField w = 5 ∧ rsvField w = 0 ∧ regField w = 0 ∧ addrAField w = a ∧ addrBField w = b := by
  simp only [decode_iff, Instr.swap.injEq, reduceCtorEq, and_false, false_or, eq_comm (a := a), eq_comm (a := b)]
  tauto

end Sys2Proof

namespace Sys2Proof.Machine

/-! ### The micro-ROM and the sequencer's step -/

theorem rom_length_le (i : Instr) : (rom i).length ≤ 18 := by
  cases i <;> simp [rom, movRoutine, subRoutine, stcRoutine, loadRoutine, swapRoutine]

/-- Settles O26: R97's rows are the model's own lists, and `swap` has the longest. -/
theorem microRomRows : Obligations.MicroRomRows :=
  ⟨fun _ _ => rfl, fun _ _ => rfl, fun _ _ => rfl, fun _ _ => rfl, fun _ _ => rfl, rom_length_le⟩

/-- With no reset next, a RUN block takes its next micro-step, whatever else is presented (R119). -/
theorem step_run_of_not_resetNext {s : State} {c : Instr} {upc : Nat} (hs : s.seq = .run c upc) (hr : ¬ s.resetNext) :
    step s = microStep c upc s := by
  rw [step_run hs]
  unfold stepRun
  split
  · next hreq => exact absurd (congrArg List.head? hreq) hr
  · rfl

section MicroStep
variable {c : Instr} {upc : Nat} {p : Prim} {s : State} (hp : (rom c)[upc]? = some p)
include hp

theorem microStep_error {a : Nat} (h : execPrim p s = .error a) :
    microStep c upc s = .fault (.outOfBounds (.command c) a) := by
  simp [microStep, hp, h, raiseOutOfBounds]

theorem microStep_last {u : State} (h : execPrim p s = .ok u) (hlast : upc + 1 = (rom c).length) :
    microStep c upc s = .next (u.complete none) := by
  simp [microStep, hp, h, hlast]

theorem microStep_more {u : State} (h : execPrim p s = .ok u) (hmore : upc + 1 ≠ (rom c).length) :
    microStep c upc s = .next (u.running c (upc + 1)) := by
  simp [microStep, hp, h, hmore]

end MicroStep

/-- Settles O27: the step is the micro-step at `upc`, in its three outcomes. -/
theorem sequencerMicroStep : Obligations.SequencerMicroStep := by
  intro s c upc hs hlt hr
  have hp : (rom c)[upc]? = some (rom c)[upc] := List.getElem?_eq_getElem hlt
  rw [step_run_of_not_resetNext hs hr]
  exact ⟨_, hp, fun _ => microStep_error hp, fun _ => microStep_last hp, fun _ => microStep_more hp⟩

/-! ### A command is its primitives, issued one by one or micro-step by micro-step -/

/-- A routine from a block that has just answered: the same, with that answer kept. -/
theorem runPrims_complete {ps : List Prim} {s u : State} (h : runPrims ps s = .ok u) (d : Option Word) :
    runPrims ps (s.complete d) = .ok (u.complete d) := by
  have hout := runPrims_outputs ps s .idle (some { status := .ok, rdata := d })
  rwa [h] at hout

/-- A primitive as a command is the routine of that one primitive (R85). -/
theorem rom_primCommand (p : Prim) : rom (primCommand p) = [p] := by cases p <;> rfl

theorem exec_primCommand_ok {p : Prim} {s u : State} (hs : s.seq = .idle) (h : execPrim p s = .ok u) :
    exec (primCommand p) s = .next (u.complete none) :=
  exec_ok hs (by rw [rom_primCommand, runPrims_cons h, runPrims_nil])

theorem exec_primCommand_error {p : Prim} {s : State} {a : Nat} (hs : s.seq = .idle) (h : execPrim p s = .error a) :
    exec (primCommand p) s = .fault (.outOfBounds (.command (primCommand p)) a) :=
  exec_error hs (by rw [rom_primCommand, runPrims_cons_error h])

theorem execAll_cons_next {i : Instr} {s t : State} (h : exec i s = .next t) (is : List Instr) :
    execAll (i :: is) s = execAll is t := by
  simp [execAll, h]

theorem execAll_cons_fault {i : Instr} {s : State} {f : Fault} (h : exec i s = .fault f) (is : List Instr) :
    execAll (i :: is) s = .fault f := by
  simp [execAll, h]

/-- Primitives that complete as a routine complete as commands of their own, each from the block the one before answered. -/
theorem execAll_primCommands_ok {ps : List Prim} {s u : State} (hs : s.seq = .idle) (hne : ps ≠ [])
    (h : runPrims ps s = .ok u) : execAll (ps.map primCommand) s = .next (u.complete none) := by
  induction ps generalizing s u with
  | nil => exact absurd rfl hne
  | cons p ps ih =>
    cases hp : execPrim p s with
    | error a => rw [runPrims_cons_error hp] at h; cases h
    | ok v =>
      rw [runPrims_cons hp] at h
      rw [List.map_cons, execAll_cons_next (exec_primCommand_ok hs hp)]
      by_cases hps : ps = []
      · subst hps
        cases h
        rfl
      · exact ih (u := u.complete none) (complete_seq v none) hps (runPrims_complete h none)

/-- Primitives that fault as a routine fault at the same address as commands of their own. -/
theorem execAll_primCommands_error {ps : List Prim} {s : State} {a : Nat} (hs : s.seq = .idle)
    (h : runPrims ps s = .error a) : ∃ op, execAll (ps.map primCommand) s = .fault (.outOfBounds op a) := by
  induction ps generalizing s with
  | nil => cases h
  | cons p ps ih =>
    rw [List.map_cons]
    cases hp : execPrim p s with
    | error b =>
      rw [runPrims_cons_error hp] at h
      cases h
      exact ⟨_, execAll_cons_fault (exec_primCommand_error hs hp) _⟩
    | ok v =>
      rw [runPrims_cons hp] at h
      rw [execAll_cons_next (exec_primCommand_ok hs hp)]
      exact ih (complete_seq v none) (runPrims_error_any h _)

/-- Settles O28: the routine completes or faults, and its primitives as commands do the same. -/
theorem compositeEqualsItsPrimitives : Obligations.CompositeEqualsItsPrimitives := by
  intro i s hs
  cases h : runPrims (rom i) s with
  | ok u =>
    rw [exec_ok hs h, execAll_primCommands_ok hs (List.ne_nil_of_length_pos (rom_ne_nil i)) h]
    rfl
  | error a =>
    obtain ⟨op, hop⟩ := execAll_primCommands_error hs h
    rw [exec_error hs h, hop]
    rfl

/-- A primitive of a running command does what it does in the block itself, with `seq` left at RUN. -/
theorem execPrim_running {p : Prim} {s t : State} (h : execPrim p s = .ok t) (c : Instr) (upc : Nat) :
    execPrim p (s.running c upc) = .ok (t.running c upc) := by
  have hout := execPrim_outputs p s (.run c upc) none
  rwa [h] at hout

/-- A command whose first primitive completes goes on as the rest of its routine. -/
theorem runCommand_cons {c : Instr} {p : Prim} {ps : List Prim} {s t : State} (h : execPrim p s = .ok t) :
    runCommand c (p :: ps) s = runCommand c ps t := by
  obtain ⟨hseq, -⟩ := execPrim_frame h
  simp only [runCommand, hseq, runPrims_cons h]

/-- Micro-steps with no reset next, one for each of the primitives `ps` left of the routine, end as those primitives run as a
command in `s`, the block the running one is apart from `seq` and the response. -/
theorem run_running {c : Instr} {ps : List Prim} {upc : Nat} {s : State} (hs : s.seq = .idle) (hr : ¬ s.resetNext)
    (hps : (rom c).drop upc = ps) (hne : ps ≠ []) :
    Host.Core.run Sys2Proof.core ps.length (s.running c upc) = runCommand c ps s := by
  induction ps generalizing upc s with
  | nil => exact absurd rfl hne
  | cons p ps ih =>
    have hp : (rom c)[upc]? = some p := by
      have hhead := congrArg List.head? hps
      rwa [List.head?_drop] at hhead
    have hrest : (rom c).drop (upc + 1) = ps := by rw [← List.tail_drop, hps, List.tail_cons]
    have hlen : (rom c).length = upc + 1 + ps.length := by
      have hcount := congrArg List.length hps
      rw [List.length_drop, List.length_cons] at hcount
      omega
    have hstep : step (s.running c upc) = microStep c upc (s.running c upc) := step_run_of_not_resetNext rfl hr
    rw [List.length_cons]
    cases he : execPrim p s with
    | error a =>
      exact (run_fault _ (hstep.trans (microStep_error hp (execPrim_error_any he _)))).trans
        (runCommand_error hs (runPrims_cons_error he ps)).symm
    | ok t =>
      obtain ⟨hseq, hreq, -, -⟩ := execPrim_frame he
      have hrun := execPrim_running he c upc
      rw [runCommand_cons he]
      by_cases hlast : ps = []
      · subst hlast
        rw [run_next _ (hstep.trans (microStep_last hp hrun hlen.symm)), runCommand_ok (hseq.trans hs) (runPrims_nil t)]
        rfl
      · have hmore : upc + 1 ≠ (rom c).length := by
          have := List.length_pos_of_ne_nil hlast
          omega
        rw [run_next _ (hstep.trans (microStep_more hp hrun hmore))]
        exact ih (hseq.trans hs) (by rwa [State.resetNext, hreq]) hrest hlast

/-- Settles O29: the accepting step latches the command with its whole routine left to run. -/
theorem microStepsRefineTheCommand : Obligations.MicroStepsRefineTheCommand := by
  intro s w rest i hs hreq hw hr
  have hstep : step s = .next ((s.setRequests rest).running i 0) := by
    rw [step_idle hs]
    simp [stepIdle, hreq, accept, acceptStepped, hw]
  rw [run_next _ hstep, exec_eq_runCommand]
  exact run_running (s := s.setRequests rest) hs hr List.drop_zero (List.ne_nil_of_length_pos (rom_ne_nil i))

/-! ### `stc` and `load` -/

/-- The command `stc` in an IDLE block, on an address inside the memory. -/
theorem exec_stc {s : State} {addr : Nat} (hs : s.seq = .idle) (ha : addr < 2048) (reg : Reg) :
    exec (.stc addr reg) s = .next (((s.setWord (addr / 4) (s.reg reg)).setReg reg 0#32).complete none) :=
  exec_ok hs (runPrims_stcRoutine ha reg s)

/-- Settles O10: the word is written first, with the register still whole, and the register cleared after it. -/
theorem stcStoresAndClears : Obligations.StcStoresAndClears := by
  refine ⟨fun s addr reg hs ha => ⟨_, exec_stc hs ha reg, ?_, ?_, fun q hq => ?_, fun k hk => ?_⟩,
    fun s _ reg hs ha => exec_error hs (runPrims_stcRoutine_error ha reg s), fun _ _ => rfl, fun _ _ _ => decode_stc_iff⟩
  · rw [complete_reg, setReg_reg]
  · rw [complete_word, setReg_word, setWord_word_self]
  · rw [complete_reg, setReg_reg_of_ne _ _ _ _ hq, setWord_reg]
  · rw [complete_word, setReg_word, setWord_word_of_ne _ _ _ _ hk.symm]

/-- The command `load` in an IDLE block, on an address inside the memory, for any content of the register (R93). -/
theorem exec_load {s : State} {addr : Nat} (hs : s.seq = .idle) (ha : addr < 2048) (reg : Reg) :
    exec (.load reg addr) s =
      .next (((s.setWord (addr / 4) (s.word (addr / 4) - s.reg reg)).setReg reg
        (s.word (addr / 4) - s.reg reg)).complete none) :=
  exec_ok hs (runPrims_loadRoutine ha reg s)

/-- Settles O12: the register and the word are both written with the difference. -/
theorem loadWithoutPreconditionSubtracts : Obligations.LoadWithoutPreconditionSubtracts := by
  intro s reg addr hs ha
  refine ⟨_, exec_load hs ha reg, ?_, ?_, fun q hq => ?_, fun k hk => ?_⟩
  · rw [complete_reg, setReg_reg, wrapSub_eq]
  · rw [complete_word, setReg_word, setWord_word_self, wrapSub_eq]
  · rw [complete_reg, setReg_reg_of_ne _ _ _ _ hq, setWord_reg]
  · rw [complete_word, setReg_word, setWord_word_of_ne _ _ _ _ hk.symm]

/-- A write of the word that stands there changes no word. -/
theorem setWord_word_unchanged (s : State) (j k : Nat) : (s.setWord j (s.word j)).word k = s.word k := by
  rw [setWord_word]
  split
  · next h => rw [h]
  · rfl

/-- `load` of a register that holds 0 reads the word, and every word reads as before (R92). -/
theorem runPrims_loadRoutine_of_zero {s : State} {reg : Reg} {addr : Nat} (ha : addr < 2048) (hz : s.reg reg = 0#32) :
    ∃ u, runPrims (loadRoutine reg addr) s = .ok u ∧ u.reg reg = s.word (addr / 4) ∧
      (∀ q, q ≠ reg → u.reg q = s.reg q) ∧ ∀ k, u.word k = s.word k := by
  have hload := runPrims_loadRoutine ha reg s
  rw [hz, BitVec.sub_zero] at hload
  refine ⟨_, hload, setReg_reg .., fun q hq => ?_, fun k => ?_⟩
  · rw [setReg_reg_of_ne _ _ _ _ hq, setWord_reg]
  · rw [setReg_word, setWord_word_unchanged]

/-- Settles O11: subtracting a register that holds 0 restores the word. -/
theorem loadReadsWordIntoZeroRegister : Obligations.LoadReadsWordIntoZeroRegister := by
  refine ⟨fun s reg addr hs ha hz => ?_, fun s reg _ hs ha => exec_error hs (runPrims_loadRoutine_error ha reg s),
    fun _ _ => rfl, fun _ _ _ => decode_load_iff⟩
  obtain ⟨u, hu, hreg, hother, hword⟩ := runPrims_loadRoutine_of_zero ha hz
  refine ⟨_, exec_ok hs hu, ?_, fun q hq => ?_, hword⟩
  · rw [complete_reg, hreg]
  · rw [complete_reg, hother q hq]

/-- A completed command leaves the reading of an address that no `mov` of its row shares a word with. -/
theorem exec_memRead_unchanged {i : Instr} {s t : State} {b : Nat} (h : exec i s = .next t)
    (hb : ∀ a r, Prim.mov a r ∈ rom i → xlate a ≠ xlate b) : memRead b t = memRead b s := by
  refine memRead_congr fun hb2048 => ?_
  by_contra hchanged
  obtain ⟨a, r, hmov, ha⟩ := exec_word_changed h hchanged
  exact hb a r hmov (ha.trans (xlate_ok hb2048).symm)

/-- Settles O20: every primitive of the two rows names the one register and the one address. -/
theorem stcAndLoadFrame : Obligations.StcAndLoadFrame := by
  intro i s t addr reg hi h
  obtain ⟨-, hreq, hcount, -⟩ := exec_frame h
  have hsub : ∀ q a, Prim.sub q a ∈ rom i → q = reg := by
    obtain rfl | rfl := hi <;> simp [rom, stcRoutine, loadRoutine]
  have hmov : ∀ a r, Prim.mov a r ∈ rom i → a = addr := by
    obtain rfl | rfl := hi <;> simp +contextual [rom, stcRoutine, loadRoutine]
  refine ⟨fun q hq => ?_, hreq, hcount, fun k hk b hb => exec_memRead_unchanged h fun a r ha hsame => ?_⟩
  · by_contra hchanged
    obtain ⟨a, ha⟩ := exec_reg_changed h hchanged
    exact hq (hsub q a ha)
  · rw [hmov a r ha, hk] at hsame
    exact hb hsame.symm

/-! ### `swap` -/

/-- Settles O21: the three addresses of the row are the scratch address and the operands. -/
theorem swapFrame : Obligations.SwapFrame := by
  intro s t a b h
  obtain ⟨-, hreq, hcount, -⟩ := exec_frame h
  have hmov : ∀ d r, Prim.mov d r ∈ rom (.swap a b) → d = Config.tempAddr ∨ d = a ∨ d = b := by
    grind [rom, swapRoutine, stcRoutine, loadRoutine]
  refine ⟨hreq, hcount, fun i j k hi hj hk c hci hcj hck => exec_memRead_unchanged h fun d r hd hsame => ?_⟩
  obtain rfl | rfl | rfl := hmov d r hd
  · exact hci (hsame.symm.trans hi)
  · exact hcj (hsame.symm.trans hj)
  · exact hck (hsame.symm.trans hk)

/-- The first step of `swap` parks the registers in the scratch word, which keeps the last, and clears them (R94). -/
theorem runPrims_parkRegs {T : Nat} (hT : T < 2048) (s : State) :
    ∃ p, runPrims (stcRoutine T .reg1 ++ stcRoutine T .reg2) s = .ok p ∧ p.x1 = 0#32 ∧ p.x2 = 0#32 ∧
      ∀ k, p.word k = (s.setWord (T / 4) s.x2).word k := by
  refine ⟨_, (runPrims_append_ok (runPrims_stcRoutine hT .reg1 s) _).trans (runPrims_stcRoutine hT .reg2 _),
    rfl, rfl, fun k => ?_⟩
  rw [setReg_word, setReg_setWord, setReg_word, setWord_setWord, setReg_reg_of_ne _ _ _ _ (by decide), setWord_reg,
    reg_reg2]

/-- The second step loads both words, the registers holding 0, and every word reads as before (R94). -/
theorem runPrims_loadBoth {a b : Nat} {s : State} (ha : a < 2048) (hb : b < 2048) (h1 : s.x1 = 0#32) (h2 : s.x2 = 0#32) :
    ∃ u, runPrims (loadRoutine .reg1 a ++ loadRoutine .reg2 b) s = .ok u ∧ u.x1 = s.word (a / 4) ∧
      u.x2 = s.word (b / 4) ∧ ∀ k, u.word k = s.word k := by
  obtain ⟨v, hv, hv1, hv2, hvword⟩ := runPrims_loadRoutine_of_zero (reg := .reg1) ha h1
  have hz : v.reg .reg2 = 0#32 := (hv2 .reg2 (by decide)).trans h2
  obtain ⟨u, hu, hu2, hu1, huword⟩ := runPrims_loadRoutine_of_zero (reg := .reg2) hb hz
  refine ⟨u, (runPrims_append_ok hv _).trans hu, ?_, ?_, fun k => (huword k).trans (hvword k)⟩
  · exact (hu1 .reg1 (by decide)).trans hv1
  · exact hu2.trans (hvword _)

/-- The third step stores each register at the other's operand and clears both; where the operands name one word, the second
store stands (R94, R95). -/
theorem runPrims_storeBoth {a b : Nat} (ha : a < 2048) (hb : b < 2048) (s : State) :
    ∃ u, runPrims (stcRoutine a .reg2 ++ stcRoutine b .reg1) s = .ok u ∧ u.x1 = 0#32 ∧ u.x2 = 0#32 ∧
      ∀ k, u.word k = ((s.setWord (a / 4) s.x2).setWord (b / 4) s.x1).word k := by
  refine ⟨_, (runPrims_append_ok (runPrims_stcRoutine ha .reg2 s) _).trans (runPrims_stcRoutine hb .reg1 _),
    rfl, rfl, fun k => ?_⟩
  rw [setReg_word, setReg_setWord, setReg_word, setReg_reg_of_ne _ _ _ _ (by decide), setWord_reg, reg_reg1, reg_reg2]

theorem swapRoutine_eq_steps (T a b : Nat) : swapRoutine T a b =
    (stcRoutine T .reg1 ++ stcRoutine T .reg2) ++ ((loadRoutine .reg1 a ++ loadRoutine .reg2 b) ++
      (stcRoutine a .reg2 ++ stcRoutine b .reg1)) := by
  simp only [swapRoutine, List.append_assoc]

/-- Word `k` after `swap` with the scratch word `i` and the operand words `j` and `l`: the scratch word takes `Reg2` before
the operands are read, and the word at `l` is written last (R94, R95). -/
def State.swappedWord (s : State) (i j l k : Nat) : Word :=
  if l = k then (s.setWord i s.x2).word j
  else if j = k then (s.setWord i s.x2).word l
  else (s.setWord i s.x2).word k

/-- The whole effect of `swap`, aliased operands too. -/
theorem execSwapWith_inBounds {T a b : Nat} {s : State} (hs : s.seq = .idle) (hT : T < 2048) (ha : a < 2048)
    (hb : b < 2048) :
    ∃ t, execSwapWith T a b s = .next t ∧ t.x1 = 0#32 ∧ t.x2 = 0#32 ∧
      ∀ k, t.word k = s.swappedWord (T / 4) (a / 4) (b / 4) k := by
  obtain ⟨p, hp, hp1, hp2, hpword⟩ := runPrims_parkRegs hT s
  obtain ⟨v, hv, hv1, hv2, hvword⟩ := runPrims_loadBoth ha hb hp1 hp2
  obtain ⟨u, hu, hu1, hu2, huword⟩ := runPrims_storeBoth ha hb v
  have hrun : runPrims (swapRoutine T a b) s = .ok u := by
    rw [swapRoutine_eq_steps, runPrims_append_ok hp, runPrims_append_ok hv, hu]
  refine ⟨_, runCommand_ok hs hrun, hu1, hu2, fun k => ?_⟩
  rw [complete_word, huword, setWord_word, setWord_word, hv1, hv2, hvword, hpword, hpword, hpword]
  rfl

section SwappedWord
variable {s : State} {i j l k : Nat}

theorem swappedWord_first (hj : j ≠ i) (hl : l ≠ i) : s.swappedWord i j l j = s.word l := by
  by_cases h : l = j
  · rw [State.swappedWord, if_pos h, setWord_word_of_ne _ _ _ _ hj.symm, h]
  · rw [State.swappedWord, if_neg h, if_pos rfl, setWord_word_of_ne _ _ _ _ hl.symm]

theorem swappedWord_second (hj : j ≠ i) : s.swappedWord i j l l = s.word j := by
  rw [State.swappedWord, if_pos rfl, setWord_word_of_ne _ _ _ _ hj.symm]

theorem swappedWord_scratch (hj : j ≠ i) (hl : l ≠ i) : s.swappedWord i j l i = s.x2 := by
  rw [State.swappedWord, if_neg hl, if_neg hj, setWord_word_self]

theorem swappedWord_other (hj : k ≠ j) (hl : k ≠ l) (hi : k ≠ i) : s.swappedWord i j l k = s.word k := by
  rw [State.swappedWord, if_neg hl.symm, if_neg hj.symm, setWord_word_of_ne _ _ _ _ hi.symm]

/-- With the first operand on the scratch word, that word is lost: the second operand gets the parked `Reg2` (R95). -/
theorem swappedWord_second_of_first_scratch : s.swappedWord i i l l = s.x2 := by
  rw [State.swappedWord, if_pos rfl, setWord_word_self]

theorem swappedWord_first_of_first_scratch (hl : l ≠ i) : s.swappedWord i i l i = s.word l := by
  rw [State.swappedWord, if_neg hl, if_pos rfl, setWord_word_of_ne _ _ _ _ hl.symm]

/-- With the second operand on the scratch word, that word is lost: the first operand gets the parked `Reg2` (R95). -/
theorem swappedWord_first_of_second_scratch (hj : j ≠ i) : s.swappedWord i j i j = s.x2 := by
  rw [State.swappedWord, if_neg hj.symm, if_pos rfl, setWord_word_self]

end SwappedWord

/-- Settles O15: off the scratch word the two words are exchanged, and each fault is that of the first access of its step. -/
theorem swapWithAnyScratchAddress : Obligations.SwapWithAnyScratchAddress := by
  refine ⟨fun T a b s hs hT ha hb haT hbT => ?_, fun T a b s hs hT => ?_, fun T a b s hs hT ha => ?_,
    fun T a b s hs hT ha hb => ?_⟩
  · obtain ⟨t, ht, ht1, ht2, hword⟩ := execSwapWith_inBounds hs hT ha hb
    refine ⟨t, ht, ?_, ?_, ht1, ht2, ?_, fun k hka hkb hkT => ?_⟩
    · rw [hword, swappedWord_first haT hbT]
    · rw [hword, swappedWord_second haT]
    · rw [hword, swappedWord_scratch haT hbT]
    · rw [hword, swappedWord_other hka hkb hkT]
  · refine runCommand_error hs ?_
    rw [swapRoutine_eq_steps]
    exact runPrims_append_error (runPrims_append_error (runPrims_stcRoutine_error hT .reg1 s) _) _
  · obtain ⟨p, hp, -⟩ := runPrims_parkRegs hT s
    refine runCommand_error hs ?_
    rw [swapRoutine_eq_steps, runPrims_append_ok hp]
    exact runPrims_append_error (runPrims_append_error (runPrims_loadRoutine_error ha .reg1 p) _) _
  · obtain ⟨p, hp, -⟩ := runPrims_parkRegs hT s
    refine runCommand_error hs ?_
    rw [swapRoutine_eq_steps, runPrims_append_ok hp]
    refine runPrims_append_error ?_ _
    exact (runPrims_append_ok (runPrims_loadRoutine ha .reg1 p) _).trans (runPrims_loadRoutine_error hb .reg2 _)

/-- Settles O14: the hardware's scratch address is one of those of O15. -/
theorem swapExchangesWords : Obligations.SwapExchangesWords :=
  ⟨fun s a b hs => swapWithAnyScratchAddress.1 Config.tempAddr a b s hs (by decide), fun _ _ _ => decode_swap_iff⟩

/-- Settles O16: the four rows of R95, each a reading of the words after `swap`. -/
theorem swapWithAliasedOperands : Obligations.SwapWithAliasedOperands := by
  intro T a b s hs hT ha hb
  obtain ⟨t, ht, ht1, ht2, hword⟩ := execSwapWith_inBounds hs hT ha hb
  refine ⟨t, ht, ht1, ht2, fun k hka hkb hkT => ?_, fun hab haT => ?_, fun haT hbT => ?_, fun hbT haT => ?_,
    fun haT hbT => ?_⟩
  · rw [hword, swappedWord_other hka hkb hkT]
  · rw [hword, hword, ← hab, swappedWord_second haT, swappedWord_scratch haT haT]
    exact ⟨rfl, rfl⟩
  · rw [hword, hword, haT, swappedWord_first_of_first_scratch hbT, swappedWord_second_of_first_scratch]
    exact ⟨rfl, rfl⟩
  · rw [hword, hword, hbT, swappedWord_first_of_second_scratch haT, swappedWord_second haT]
    exact ⟨rfl, rfl⟩
  · rw [hword, haT, hbT, swappedWord_second_of_first_scratch]

/-- A `swap` that completed had both operands inside the memory. -/
theorem exec_swap_next_inBounds {a b : Nat} {s t : State} (h : exec (.swap a b) s = .next t) : a < 2048 ∧ b < 2048 := by
  obtain ⟨-, u, hu, -⟩ := exec_next h
  exact ⟨runPrims_mov_inBounds hu (r := .reg2) (by simp [rom, swapRoutine, stcRoutine]),
    runPrims_mov_inBounds hu (r := .reg1) (by simp [rom, swapRoutine, stcRoutine])⟩

/-- Settles O17: the second `swap` finds `Reg2` cleared by the first, which is what the scratch word gets. -/
theorem swapTwiceRestoresThePair : Obligations.SwapTwiceRestoresThePair := by
  refine ⟨fun s a b hs ha hb haT hbT => ?_, fun s t a b h => ?_⟩
  · obtain ⟨t, ht, hta, htb, ht1, ht2, -⟩ := swapExchangesWords.1 s a b hs ha hb haT hbT
    obtain ⟨hidle, -⟩ := exec_frame ht
    obtain ⟨u, hu, hua, hub, hu1, hu2, huT, -⟩ := swapExchangesWords.1 t a b hidle ha hb haT hbT
    exact ⟨t, u, ht, hu, ht1, ht2, hu1, hu2, hua.trans htb, hub.trans hta, huT.trans ht2⟩
  · obtain ⟨hs, -⟩ := exec_next h
    obtain ⟨ha, hb⟩ := exec_swap_next_inBounds h
    obtain ⟨v, hv, hv1, hv2, -⟩ := execSwapWith_inBounds (T := Config.tempAddr) hs (by decide) ha hb
    cases h.symm.trans hv
    exact ⟨hv1, hv2⟩

end Sys2Proof.Machine
end

section
/-! PROOFS. Runs of host transactions (`42_host_interface.md` R121, `93_implementation_defined.md` U2): what holds along a run,
and how a run goes on after a number of steps. -/

namespace Sys2Proof.Machine

/-- What a step keeps holds of every state a run reaches. -/
theorem run_induct {P : State → Prop} (hstep : ∀ s t, P s → step s = .next t → P t) {n : Nat} {s t : State}
    (h : Host.Core.run Sys2Proof.core n s = .next t) (hs : P s) : P t := by
  induction n generalizing s with
  | zero => cases h; exact hs
  | succ n ih =>
    cases hu : step s with
    | next u => rw [run_next n hu] at h; exact ih h (hstep s u hs hu)
    | fault f => rw [run_fault n hu] at h; cases h
    | refused r => rw [run_refused n hu] at h; cases h

/-- Settles O51: what the host presents is no part of the invariant, so a run starts in it as `State.reset` does, and every
step keeps it. -/
theorem runsReachOnlyInvariantStates : Obligations.RunsReachOnlyInvariantStates :=
  fun _ _ _ h => run_induct stepKeepsTheInvariant h invariantHoldsAtReset.1

/-- A run that has reached a state goes on from it. -/
theorem run_add_next {n : Nat} {s t : State} (h : Host.Core.run Sys2Proof.core n s = .next t) (k : Nat) :
    Host.Core.run Sys2Proof.core (n + k) s = Host.Core.run Sys2Proof.core k t := by
  induction n generalizing s with
  | zero => cases h; rw [Nat.zero_add]
  | succ n ih =>
    rw [Nat.succ_add]
    cases hu : step s with
    | next u => rw [run_next n hu] at h; rw [run_next _ hu, ih h]
    | fault f => rw [run_fault n hu] at h; cases h
    | refused r => rw [run_refused n hu] at h; cases h

/-- A run that has faulted stays faulted. -/
theorem run_add_fault {n : Nat} {s : State} {f : Fault} (h : Host.Core.run Sys2Proof.core n s = .fault f) (k : Nat) :
    Host.Core.run Sys2Proof.core (n + k) s = .fault f := by
  induction n generalizing s with
  | zero => cases h
  | succ n ih =>
    rw [Nat.succ_add]
    cases hu : step s with
    | next u => rw [run_next n hu] at h; rw [run_next _ hu, ih h]
    | fault g => rw [run_fault n hu] at h; rw [run_fault _ hu, h]
    | refused r => rw [run_refused n hu] at h; cases h

/-- A state that steps to itself is where every run from it stays. -/
theorem run_of_step_self {t : State} (h : step t = .next t) (k : Nat) :
    Host.Core.run Sys2Proof.core k t = .next t := by
  induction k with
  | zero => exact run_zero
  | succ k ih => rw [run_next k h, ih]

/-- Settles O52: a well-ended state is IDLE with nothing presented, so the run stays there however many steps it takes, and
the faulted run stays at its fault: the two disagree on the run of `m + n` steps. -/
theorem faultedRunNeverEndsWell : Obligations.FaultedRunNeverEndsWell := by
  rintro l n f hfault ⟨t, ⟨m, hend⟩, hreq, hidle, -⟩
  have hself : step t = .next t := nothingHappensBetweenTransactions t hidle hreq
  have hnext : Host.Core.run Sys2Proof.core (m + n) (State.runStart l) = .next t :=
    (run_add_next hend n).trans (run_of_step_self hself n)
  rw [Nat.add_comm, run_add_fault hfault m] at hnext
  cases hnext

end Sys2Proof.Machine
end

section
/-! PROOFS. The host's transactions in each shape of `seq` (`42_host_interface.md` R111 to R120): the outputs, reset, commands,
and the memory accessor. -/

namespace Sys2Proof.Machine

/-! ### The outputs -/

@[simp] theorem cmdReady_eq_true_iff (s : State) : s.cmdReady = true ↔ s.seq = .idle := decide_eq_true_iff

@[simp] theorem accReady_eq_true_iff (s : State) : s.accReady = true ↔ s.seq = .idle := decide_eq_true_iff

@[simp] theorem isHalted_eq_true_iff (s : State) : s.isHalted = true ↔ s.seq = .halted := decide_eq_true_iff

@[simp] theorem busy_eq_true_iff (s : State) : s.busy = true ↔ ∃ c upc, s.seq = .run c upc := by
  obtain hs | ⟨c, upc, hs⟩ | hs := seq_cases s <;> simp [State.busy, hs]

theorem cmdReady_of_ne_idle {s : State} (h : s.seq ≠ .idle) : s.cmdReady = false := decide_eq_false h

theorem accReady_of_ne_idle {s : State} (h : s.seq ≠ .idle) : s.accReady = false := decide_eq_false h

/-- Settles O47, one output at a time. -/
theorem outputsFollowTheSequencer : Obligations.OutputsFollowTheSequencer :=
  fun s => ⟨cmdReady_eq_true_iff s, accReady_eq_true_iff s, busy_eq_true_iff s, isHalted_eq_true_iff s,
    fun hs => ⟨if_pos hs, if_pos hs⟩, fun hs => ⟨if_neg hs, if_neg hs⟩⟩

/-! ### Reset -/

/-- Settles O3: `step_reset` in every shape of `seq`. -/
theorem resetFromEveryState : Obligations.ResetFromEveryState := fun _ _ => step_reset

/-- A HALTED block that steps has taken a reset (R120). -/
theorem step_halted_next {s t : State} (hs : s.seq = .halted) (h : step s = .next t) :
    ∃ rest, s.requests = .reset :: rest ∧ t = resetBlock (s.setRequests rest) := by
  rw [step_halted hs] at h
  unfold stepHalted at h
  split at h
  · cases h
  · next rest hreq => cases h; exact ⟨rest, hreq, rfl⟩
  · cases h

/-- Settles O45: the outputs follow `seq`, and the one step of the block leaves the reset values. -/
theorem haltedBlockOnlyResets : Obligations.HaltedBlockOnlyResets := by
  intro s hs
  have hne : s.seq ≠ .idle := by simp [hs]
  refine ⟨cmdReady_of_ne_idle hne, accReady_of_ne_idle hne, (isHalted_eq_true_iff s).2 hs, by simp [State.busy, hs],
    fun t h => ?_⟩
  obtain ⟨rest, hreq, rfl⟩ := step_halted_next hs h
  exact ⟨rest, hreq, resetBlock_x1 _, resetBlock_x2 _, word_nil, resetBlock_seq _⟩

/-! ### Commands -/

/-- Settles O25: the sequencer starts a routine from IDLE only. -/
theorem commandNeedsIdleBlock : Obligations.CommandNeedsIdleBlock := by
  intro i s hne
  rw [exec_eq_runCommand]
  obtain hs | ⟨c, upc, hs⟩ | hs := seq_cases s
  · exact absurd hs hne
  · simp [runCommand, hs]
  · simp [runCommand, hs]

/-- A micro-step leaves the host's list as it is. -/
theorem microStep_requests {c : Instr} {upc : Nat} {s t : State} (h : microStep c upc s = .next t) :
    t.requests = s.requests := by
  obtain ⟨p, u, -, hu, ht⟩ := microStep_next h
  obtain ⟨-, hreq, -⟩ := execPrim_frame hu
  obtain ⟨-, rfl⟩ | ⟨-, rfl⟩ := ht <;> exact hreq

/-- Settles O30: RUN is not IDLE, and a step that takes no reset is a micro-step. -/
theorem runningCommandIsExclusive : Obligations.RunningCommandIsExclusive := by
  intro s c upc hs
  have hne : s.seq ≠ .idle := by simp [hs]
  refine ⟨cmdReady_of_ne_idle hne, accReady_of_ne_idle hne, fun t h hreset => ?_⟩
  rw [step_run_of_not_resetNext hs hreset] at h
  exact microStep_requests h

theorem decodeTableWord_eq_some_iff {nbits w : Nat} {i : Instr} :
    decodeTableWord nbits w = some i ↔ decode (tableWord nbits w) = .ok i := by
  unfold decodeTableWord
  cases decode (tableWord nbits w) <;> simp [Except.toOption]

/-- The transaction that `withFetchWord` presents, taken again, leaves an IDLE block as it was. -/
theorem withFetchWord_setRequests {s : State} (hs : s.seq = .idle) (nbits w : Nat) :
    (s.withFetchWord nbits w).setRequests s.requests = s := by
  cases s
  cases hs
  rfl

/-- Settles O35: both clauses are a command word presented to an IDLE block. -/
theorem stepRunsDecodedCommand : Obligations.StepRunsDecodedCommand := by
  refine ⟨fun s w rest i => step_command, fun s nbits w i hs hi => ?_⟩
  have hstep := step_command (s := s.withFetchWord nbits w) rfl rfl (decodeTableWord_eq_some_iff.1 hi)
  rwa [withFetchWord_setRequests hs] at hstep

/-! ### The memory accessor -/

section Access
variable {s : State} {a : Nat} {v : Word} {rest : List Request} (hs : s.seq = .idle)
include hs

/-- An IDLE block that is presented a read inside the memory answers the word (R115). -/
theorem step_read (hr : s.requests = .read a :: rest) (ha : a < 2048) :
    step s = .next ((s.setRequests rest).complete (some (s.word (a / 4)))) := by
  rw [step_idle hs]
  simp [stepIdle, hr, accept, hostRead, hs, memRead_ok ha]

theorem step_read_error (hr : s.requests = .read a :: rest) (ha : 2048 ≤ a) :
    step s = .fault (.outOfBounds .hostRead a) := by
  rw [step_idle hs]
  simp [stepIdle, hr, accept, hostRead, hs, memRead_error ha, raiseOutOfBounds]

/-- An IDLE block that is presented a write inside the memory writes the word (R115). -/
theorem step_write (hr : s.requests = .write a v :: rest) (ha : a < 2048) :
    step s = .next (((s.setRequests rest).setWord (a / 4) v).complete none) := by
  rw [step_idle hs]
  simp [stepIdle, hr, accept, hostWrite, hs, memWrite_ok ha]

theorem step_write_error (hr : s.requests = .write a v :: rest) (ha : 2048 ≤ a) :
    step s = .fault (.outOfBounds .hostWrite a) := by
  rw [step_idle hs]
  simp [stepIdle, hr, accept, hostWrite, hs, memWrite_error ha, raiseOutOfBounds]

end Access

/-- Settles O39: a read sets `seq` and the response only. -/
theorem hostReadAnswersTheWord : Obligations.HostReadAnswersTheWord :=
  ⟨fun _ _ _ hs hr ha => ⟨_, step_read hs hr ha, rfl, rfl, rfl, fun _ => rfl, rfl, rfl⟩,
    fun _ _ _ => step_read_error⟩

/-- Settles O40: a write is `setWord` at the index of the address. -/
theorem hostWriteReplacesTheWord : Obligations.HostWriteReplacesTheWord :=
  ⟨fun s a v rest hs hr ha => ⟨_, step_write hs hr ha, rfl, setWord_word_self (s.setRequests rest) (a / 4) v,
    fun k hk => setWord_word_of_ne (s.setRequests rest) (a / 4) k v hk.symm, rfl, rfl, rfl, rfl⟩,
    fun _ _ _ _ => step_write_error⟩

end Sys2Proof.Machine
end

section
/-! PROOFS. The one fault (`60_exceptions.md` R130 to R134): which commands raise `OutOfBounds`, and what the block is after
it. -/

namespace Sys2Proof

/-- The address a primitive accesses (R80, R81). -/
def Prim.addr : Prim → Nat
  | .mov dest _ => dest
  | .sub _ src => src

end Sys2Proof

namespace Sys2Proof.Machine

/-! ### Which commands fault -/

/-- A primitive completes exactly when its one address is inside the memory (R43, R130). -/
theorem execPrim_completes_iff (p : Prim) (s : State) : (∃ t, execPrim p s = .ok t) ↔ p.addr < 2048 := by
  refine ⟨fun ⟨t, ht⟩ => ?_, fun ha => ?_⟩
  · obtain ⟨d, r, rfl, hd, -⟩ | ⟨r, a, rfl, ha, -⟩ := execPrim_cases ht
    · exact hd
    · exact ha
  · cases p with
    | mov dest src => exact ⟨_, execPrim_mov ha src s⟩
    | sub dest src => exact ⟨_, execPrim_sub ha dest s⟩

/-- A routine completes exactly when every address of it is inside the memory (R130). -/
theorem runPrims_completes_iff (ps : List Prim) (s : State) :
    (∃ t, runPrims ps s = .ok t) ↔ ∀ p ∈ ps, p.addr < 2048 := by
  induction ps generalizing s with
  | nil => simp
  | cons p ps ih =>
    rw [List.forall_mem_cons, ← execPrim_completes_iff p s]
    cases hp : execPrim p s with
    | error a => simp [runPrims_cons_error hp]
    | ok u => simp [runPrims_cons hp, ih]

/-- The addresses `CommandInBounds` names are those of the command's row of the micro-ROM (R97). -/
theorem commandInBounds_iff (i : Instr) : CommandInBounds i ↔ ∀ p ∈ rom i, p.addr < 2048 := by
  cases i with
  | swap a b =>
    simp only [CommandInBounds, Config.memBytes, rom, swapRoutine, stcRoutine, loadRoutine, List.forall_mem_append,
      List.forall_mem_cons, Prim.addr]
    tauto
  | _ => simp [CommandInBounds, rom, movRoutine, subRoutine, stcRoutine, loadRoutine, Prim.addr]

/-- Settles O23: the command's routine completes exactly when every address of it is in bounds, and a routine that stops has
stopped at an address that is not. -/
theorem commandCompletesExactlyInBounds : Obligations.CommandCompletesExactlyInBounds := by
  intro i s hs
  rw [commandInBounds_iff, ← runPrims_completes_iff (rom i) s]
  refine ⟨fun ⟨u, hu⟩ => ⟨_, exec_ok hs hu⟩, fun hstops => ?_⟩
  cases hrun : runPrims (rom i) s with
  | ok u => exact absurd ⟨u, hrun⟩ hstops
  | error a => exact ⟨a, runPrims_error hrun, exec_error hs hrun⟩

/-! ### The block after a fault -/

/-- After `OutOfBounds` the block is the HALTED one of R132. -/
theorem blockAfter_outOfBounds {s : State} {op : Operation} {a : Nat} (h : step s = .fault (.outOfBounds op a)) :
    blockAfter s = some (haltBlock s) := by
  simp [blockAfter, h]

/-- A HALTED block that nothing is presented to takes no step (R120). -/
theorem step_halted_ne_next {s : State} (hs : s.seq = .halted) (hr : s.requests = []) (t : State) :
    step s ≠ .next t := by
  intro h
  obtain ⟨rest, hreq, -⟩ := step_halted_next hs h
  simp [hr] at hreq

/-- Settles O46: the block is `haltBlock`, which no transaction is left for, so only a reset presented anew steps it. -/
theorem faultHaltsTheBlock : Obligations.FaultHaltsTheBlock := by
  intro s op a h
  have hreset : step ((haltBlock s).present [.reset]) = _ := step_reset (rest := []) rfl
  exact ⟨haltBlock s, blockAfter_outOfBounds h, haltBlock_seq s, ⟨_, haltBlock_rsp s, rfl⟩,
    step_halted_ne_next rfl rfl, _, hreset, rfl, rfl, word_nil, rfl, rfl⟩

end Sys2Proof.Machine
end

section
/-! PROOFS. Commands on a register that still holds its reset value (`70_reset_and_hazards.md` R153). -/

namespace Sys2Proof.Machine

/-- A wrapping subtraction of −1, the reset value of a register, adds 1 (R83, R31). -/
theorem wrapSub_minusOne (v : Word) : wrapSub v 0xFFFFFFFF#32 = v + 1#32 := by
  have hneg : (0xFFFFFFFF#32 : Word) = -1#32 := by decide
  rw [wrapSub_eq, hneg, sub_neg_eq_add]

/-- Settles O13: `load` of any register leaves the difference (R93), here that of the word and −1. -/
theorem loadAfterResetAddsOne : Obligations.LoadAfterResetAddsOne := by
  intro s reg addr hs ha hreset
  obtain ⟨t, hexec, hreg, hword, -⟩ := loadWithoutPreconditionSubtracts s reg addr hs ha
  rw [hreset, wrapSub_minusOne] at hreg hword
  exact ⟨t, hexec, hreg, hword⟩

end Sys2Proof.Machine
end
